-- ==== Sys2Proof/Word.lean ====
section
/-! DEFINITION. The word types of the core.

A register value is an unsigned number of XLEN bits (10_state.md R15), and XLEN is a parameter (00_scope.md R9). So a
register holds a `Nat`: `State.Inv` says it is below 2^XLEN, and every arithmetic result is narrowed by `Machine.wrap`.
DESIGN CHOICE, log 1. -/

namespace Sys2Proof

/-- One memory cell, and one byte of an instruction: 8 bits, unsigned (20_memory.md R34, 30_encoding.md R52). -/
abbrev Byte := BitVec 8

end Sys2Proof
end

