-- ==== Sys2Proof/Syntax.lean ====
section
/-! DEFINITION. The six instructions of the core, and the operation tags of its ALU. -/

namespace Sys2Proof

/-- The instruction set (30_encoding.md R58). An operand is the whole operand byte, 0..255 (R54): a register
operand above 7 is an instruction the core fetches and decodes, and then faults on (R55, R61). -/
inductive Instr where
  /-- LDI Ra, imm (41_ldi.md R83). -/
  | ldi (a imm : Byte)
  /-- PRN Ra (42_prn.md R86). -/
  | prn (a : Byte)
  /-- HLT (43_hlt.md R87). -/
  | hlt
  /-- MUL Ra, Rb (44_alu.md R93). -/
  | mul (a b : Byte)
  /-- PUSH Ra (45_stack.md R97). -/
  | push (a : Byte)
  /-- POP Ra (45_stack.md R98). -/
  | pop (a : Byte)
  deriving DecidableEq, Repr

/-- The operand bytes of kind `r` (register index), in operand order (30_encoding.md R54, R58). -/
def Instr.regOperands : Instr → List Byte
  | .ldi a _ => [a]
  | .prn a => [a]
  | .hlt => []
  | .mul a b => [a, b]
  | .push a => [a]
  | .pop a => [a]

/-- The operation tags the ALU may be given (44_alu.md R88): an enumeration of ADD, MUL, SUB and any other tag,
with no binary encoding. -/
inductive AluOp where
  | add
  | mul
  /-- "Reserved vocabulary", not implemented (44_alu.md R91). -/
  | sub
  /-- Any other tag, told apart by a number that has no meaning of its own. -/
  | other (tag : Nat)
  deriving DecidableEq, Repr

end Sys2Proof
end

