-- ==== Sys2Proof/Config.lean ====
section
/-! DEFINITION. What is fixed for the machine, and the one value the spec leaves open. -/

namespace Sys2Proof

/-- `MEM_SIZE`: the number of memory cells (00_scope.md R8, 20_memory.md R34). -/
def Config.memSize : Nat := 256

/-- What a cell that nothing has written reads as (20_memory.md R34, R45). -/
def Config.unwrittenCell : Byte := 0

/-- XLEN in the spec's reference configuration (00_scope.md R9). The model's rules hold at every XLEN: the width
stands in `State.xlen` (log 1). -/
def Config.referenceXlen : Nat := 16

/-- FREE VALUE. The number by which a fault record's `info` names an ALU operation tag (60_exceptions.md R103):
the tag has no binary encoding (44_alu.md R88), so nothing constrains it. No instruction records it (R92). Log 5. -/
opaque Config.aluTagInfo : AluOp → Nat

end Sys2Proof
end

