-- ==== Sys2Proof/Decode.lean ====
section
/-! DEFINITION. From bytes to instructions and back (30_encoding.md). -/

namespace Sys2Proof

/-! The opcode bytes: 30_encoding.md R58. -/

def Opcode.ldi : Byte := 0b10000010#8
def Opcode.prn : Byte := 0b01000111#8
def Opcode.hlt : Byte := 0b00000001#8
def Opcode.mul : Byte := 0b10100010#8
def Opcode.push : Byte := 0b01000101#8
def Opcode.pop : Byte := 0b01000110#8

/-- The three formats of 30_encoding.md R52, each with the instruction it builds from its operand bytes. -/
inductive Format where
  | f0 (i : Instr)
  | f1 (mk : Byte → Instr)
  | f2 (mk : Byte → Byte → Instr)

/-- The opcode map: the whole byte is compared (30_encoding.md R53, R58), and any other byte has no entry (R60). -/
def lookupOpcode (op : Byte) : Option Format :=
  if op = Opcode.ldi then some (.f2 .ldi)
  else if op = Opcode.prn then some (.f1 .prn)
  else if op = Opcode.hlt then some (.f0 .hlt)
  else if op = Opcode.mul then some (.f2 .mul)
  else if op = Opcode.push then some (.f1 .push)
  else if op = Opcode.pop then some (.f1 .pop)
  else none

/-- Why a sequence of bytes is no instruction. -/
inductive DecodeError where
  /-- There is no byte to take the opcode from. -/
  | noOpcode
  /-- The first byte is none of the six opcodes (30_encoding.md R60). -/
  | illegalOpcode (op : Byte)
  /-- Operand byte `k` (1 or 2) of a legal opcode is not there (40_execution_engine.md R71). -/
  | missingOperand (op : Byte) (k : Nat)
  deriving DecidableEq, Repr

/-- Read one instruction off the front of the bytes; the rest is left over. Operands are taken in order and only as
many as the format has (30_encoding.md R57, 40_execution_engine.md R70, R71). -/
def decode : List Byte → Except DecodeError (Instr × List Byte)
  | [] => .error .noOpcode
  | op :: rest =>
    match lookupOpcode op with
    | none => .error (.illegalOpcode op)
    | some (.f0 i) => .ok (i, rest)
    | some (.f1 mk) =>
      match rest with
      | [] => .error (.missingOperand op 1)
      | a :: rest => .ok (mk a, rest)
    | some (.f2 mk) =>
      match rest with
      | [] => .error (.missingOperand op 1)
      | [_] => .error (.missingOperand op 2)
      | a :: b :: rest => .ok (mk a b, rest)

/-- The opcode byte of an instruction (30_encoding.md R58). -/
def Instr.opcode : Instr → Byte
  | .ldi _ _ => Opcode.ldi
  | .prn _ => Opcode.prn
  | .hlt => Opcode.hlt
  | .mul _ _ => Opcode.mul
  | .push _ => Opcode.push
  | .pop _ => Opcode.pop

/-- The operand bytes of an instruction, in order (30_encoding.md R52). -/
def Instr.operands : Instr → List Byte
  | .ldi a imm => [a, imm]
  | .prn a => [a]
  | .hlt => []
  | .mul a b => [a, b]
  | .push a => [a]
  | .pop a => [a]

/-- An instruction's length in bytes: 1 + its operand count (40_execution_engine.md R72). -/
def Instr.length (i : Instr) : Nat := 1 + i.operands.length

/-- The bytes of an instruction (30_encoding.md R51, R63). -/
def encode (i : Instr) : List Byte := i.opcode :: i.operands

/-- The longest instruction's length (30_encoding.md R51). -/
def maxLength : Nat := 3

/-- A program assembles to the concatenation of its instructions' bytes (30_encoding.md R65). -/
def assemble (prog : List Instr) : List Byte := prog.flatMap encode

/-- The first `n` bytes of a number, least significant byte first: the numbering of spec/opcode_table.json, whose
bit 0 is the least significant bit of the first byte. -/
def bytesOfTableWord : Nat → Nat → List Byte
  | 0, _ => []
  | n + 1, w => BitVec.ofNat 8 w :: bytesOfTableWord n (w / 256)

/-- The instruction the decoder reads from a table word; the bytes above its `nbits` are 0. -/
def decodeTableWord (nbits w : Nat) : Option Instr :=
  match decode (bytesOfTableWord maxLength (w % 2 ^ nbits)) with
  | .ok (i, _) => some i
  | .error _ => none

end Sys2Proof
end

