-- ==== Sys2Proof/Machine/State.lean ====
section
/-! DEFINITION. The state of the core (10_state.md R28), its reset value, and the reasons a step can stop. -/

namespace Sys2Proof.Machine

/-- The fault kinds of 60_exceptions.md R101. -/
inductive FaultKind where
  | outOfBounds
  | illegalOpcode
  | unsupportedOperation
  | registerOutOfBounds
  | valueTooWide
  /-- Raised by the host's load, never by a step (60_exceptions.md R111). -/
  | loadFailure
  deriving DecidableEq, Repr

/-- The fault record (60_exceptions.md R103). -/
structure FaultRecord where
  kind : FaultKind
  /-- The address of the opcode byte of the faulting instruction. -/
  pc : Nat
  /-- The fetched opcode; none if the fetch itself faulted. -/
  opcode : Option Byte
  /-- The address, opcode, operation tag, index or value, by the kind (R101). -/
  info : Nat
  deriving DecidableEq, Repr

/-- The termination status (10_state.md R26). -/
inductive Status where
  | running
  | halted
  | faulted (record : FaultRecord)
  deriving DecidableEq, Repr

/-- Memory: the cells that differ from `Config.unwrittenCell`, at strictly rising addresses (log 7). -/
abbrev Memory := List Host.Cell

/-- The state tuple of 10_state.md R28, and beside it the width XLEN the machine was built with. -/
structure State where
  /-- XLEN (00_scope.md R9): a parameter of the machine, which no step changes. The MODEL's own field, log 1. -/
  xlen : Nat
  /-- The memory array (20_memory.md R34). -/
  mem : Memory
  /-- The register file R0..R7 (10_state.md R15); index 7 is SP (R17). -/
  x : Vector Nat 8
  /-- The program counter (10_state.md R21). -/
  pc : Nat
  /-- The termination status, which carries the fault record (10_state.md R26). -/
  status : Status
  /-- The output channel: the values PRN has emitted, oldest first (10_state.md R27). -/
  out : List Nat
  deriving DecidableEq, Repr

/-- Why there is no next state. The spec's own faults are not here: they are next states whose status is
`Status.faulted` (60_exceptions.md R103, log 2). -/
inductive Fault where
  /-- Raised by `step` in a Halted core: "has no step" (40_execution_engine.md R68). Safe: the core does nothing. -/
  | halted
  /-- Raised by `step` in a Faulted core: "has no step" (40_execution_engine.md R68). Safe: the core does nothing. -/
  | faulted
  deriving DecidableEq, Repr

/-- Why an instruction is refused. -/
inductive Refusal where
  /-- For an arm of `exec` without a meaning: none is left, so nothing raises it. Safe: it stops. -/
  | notModelled (mnemonic : String)
  deriving DecidableEq, Repr

/-- What an instruction or a step answers. -/
abbrev Result := Host.Outcome State Fault Refusal

/-- The machine right after construction with register width `xlen` (70_reset_and_hazards.md R118). -/
def State.resetAt (xlen : Nat) : State where
  xlen := xlen
  mem := []
  x := #v[0, 0, 0, 0, 0, 0, 0, 256]
  pc := 0
  status := .running
  out := []

/-- The machine right after reset, in the reference configuration (00_scope.md R9, 70_reset_and_hazards.md R118). -/
def State.reset : State := State.resetAt Config.referenceXlen

end Sys2Proof.Machine
end

