-- ==== Sys2Proof/Machine/Ops.lean ====
section
/-! DEFINITION. The named operations over memory, registers, the output channel and the status
(00_scope.md R12), taking a fault among them. -/

namespace Sys2Proof.Machine

/-! ### Memory (20_memory.md) -/

/-- The cell at an address; an address not listed holds the reset contents (20_memory.md R34, R45). -/
def Memory.read : Memory → Nat → Byte
  | [], _ => Config.unwrittenCell
  | (k, b) :: m, a => if k = a then b else Memory.read m a

/-- The listing of one cell: nothing for a value an unlisted address reads as. -/
def Memory.cell (a : Nat) (v : Byte) : Memory := if v = Config.unwrittenCell then [] else [(a, v)]

/-- Set the cell at an address, keeping the canonical form. -/
def Memory.write : Memory → Nat → Byte → Memory
  | [], a, v => Memory.cell a v
  | (k, b) :: m, a, v =>
    if a < k then Memory.cell a v ++ (k, b) :: m
    else if a = k then Memory.cell a v ++ m
    else (k, b) :: Memory.write m a v

/-- The canonical form from address `lo` on. -/
def Memory.wfFrom : Nat → Memory → Bool
  | _, [] => true
  | lo, (k, b) :: m =>
    decide (lo ≤ k) && decide (k < Config.memSize) && decide (b ≠ Config.unwrittenCell) && Memory.wfFrom (k + 1) m

/-- The canonical form of memory: addresses strictly rising, all below 256, no cell listed with the reset contents.
Two memories in this form are equal exactly when they read alike. -/
def Memory.wf (m : Memory) : Bool := Memory.wfFrom 0 m

/-- Set consecutive cells from address `a` upward. -/
def Memory.writeBytes : Memory → Nat → List Byte → Memory
  | m, _, [] => m
  | m, a, b :: bs => Memory.writeBytes (m.write a b) (a + 1) bs

/-- `MemRead(a, 1)`: the cell, or none where the access is out of bounds (20_memory.md R36, R37). -/
def State.memRead (s : State) (a : Nat) : Option Byte :=
  if a < Config.memSize then some (s.mem.read a) else none

/-- `MemWrite(a, 1, v)` at an address already checked to be at most 255 (20_memory.md R38). -/
def State.setByte (s : State) (a : Nat) (v : Byte) : State := { s with mem := s.mem.write a v }

/-! ### Registers (10_state.md) -/

/-- The index of the stack pointer (10_state.md R16, R17). -/
abbrev SP : Fin 8 := 7

/-- `get(index)` (10_state.md R20). No register is hardwired (R16). -/
def State.reg (s : State) (r : Fin 8) : Nat := s.x[r]

/-- `set(index, value)` (10_state.md R20). -/
def State.setReg (s : State) (r : Fin 8) (v : Nat) : State := { s with x := s.x.set r v }

/-- `wrap(v)`: v mod 2^XLEN for any integer v, in 0..2^XLEN-1 (00_scope.md R12). -/
def wrap (xlen : Nat) (v : Int) : Nat := (BitVec.ofInt xlen v).toNat

/-! ### Completing an instruction, emitting, faulting -/

/-- `pc <- pc + len`, with no wrap (40_execution_engine.md R72, 44_alu.md R94). -/
def State.advance (s : State) (len : Nat) : State := { s with pc := s.pc + len }

/-- `emit(v)` (42_prn.md R85). -/
def State.emit (s : State) (v : Nat) : State := { s with out := s.out ++ [v] }

/-- `status <- Halted` (10_state.md R25). -/
def State.halt (s : State) : State := { s with status := .halted }

/-- `raise K(info)`: TAKING A FAULT. The status becomes Faulted with the record of 60_exceptions.md R103, and nothing
else changes (40_execution_engine.md R74); `s` is the state from before the step. There is no return from one (R108). -/
def raise (s : State) (opcode : Option Byte) (kind : FaultKind) (info : Nat) : Result :=
  .next { s with status := .faulted { kind := kind, pc := s.pc, opcode := opcode, info := info } }

end Sys2Proof.Machine
end

