-- ==== Sys2Proof/Machine/Operands.lean ====
section
/-! DEFINITION. The operand kinds of 30_encoding.md R54, and the two operands the stack instructions imply. -/

namespace Sys2Proof.Machine

/-- `RegIndex(b)`: the register an operand byte names, or none where the index is out of bounds. All eight bits are
compared (30_encoding.md R55). -/
def regIndex (b : Byte) : Option (Fin 8) :=
  if h : b.toNat < 8 then some ⟨b.toNat, h⟩ else none

/-- An immediate operand, and a popped cell: the byte zero-extended to XLEN bits (30_encoding.md R56). -/
def zext (b : Byte) : Nat := b.toNat

/-- The SP a PUSH decrements to, which is the address it stores to: wrap(SP - 1), all XLEN bits of it
(45_stack.md R97, 20_memory.md R36). -/
def pushAddress (s : State) : Nat := wrap s.xlen ((s.reg SP : Int) - 1)

/-- The address a POP reads: SP before the increment (45_stack.md R98). -/
def popAddress (s : State) : Nat := s.reg SP

end Sys2Proof.Machine
end

