-- ==== Sys2Proof/Machine/Alu.lean ====
section
/-! DEFINITION. The ALU and MUL (44_alu.md). -/

namespace Sys2Proof.Machine

/-- ALU ADD of two register values (44_alu.md R89): the low XLEN bits of the sum. -/
def aluAdd (xlen : Nat) (v w : Nat) : Nat := wrap xlen ((v : Int) + (w : Int))

/-- ALU MUL of two register values (44_alu.md R90): the low XLEN bits of the product. -/
def aluMul (xlen : Nat) (v w : Nat) : Nat := wrap xlen ((v : Int) * (w : Int))

/-- `apply(op, d, r)` (44_alu.md R88): it writes only register d. A tag other than ADD and MUL is an
UnsupportedOperation, SUB among them (R91); the error is the tag, for whoever calls it to raise. -/
def aluApply (op : AluOp) (d r : Fin 8) (s : State) : Except AluOp State :=
  match op with
  | .add => .ok (s.setReg d (aluAdd s.xlen (s.reg d) (s.reg r)))
  | .mul => .ok (s.setReg d (aluMul s.xlen (s.reg d) (s.reg r)))
  | .sub => .error .sub
  | .other tag => .error (.other tag)

/-- MUL Ra, Rb: 44_alu.md R93. The index of operand_a is checked first (60_exceptions.md R105). The ALU implements
MUL, so the last arm is never taken (R92). -/
def execMul (a b : Byte) (s : State) : Result :=
  match regIndex a with
  | none => raise s (some Opcode.mul) .registerOutOfBounds a.toNat
  | some d =>
    match regIndex b with
    | none => raise s (some Opcode.mul) .registerOutOfBounds b.toNat
    | some r =>
      match aluApply .mul d r s with
      | .ok t => .next (t.advance 3)
      | .error op => raise s (some Opcode.mul) .unsupportedOperation (Config.aluTagInfo op)

end Sys2Proof.Machine
end

