-- ==== Sys2Proof/Machine/Control.lean ====
section
/-! DEFINITION. HLT (43_hlt.md). There are no other control instructions (40_execution_engine.md R76). -/

namespace Sys2Proof.Machine

/-- HLT: 43_hlt.md R87. It advances pc too. -/
def execHlt (s : State) : Result := .next (s.halt.advance 1)

end Sys2Proof.Machine
end

