-- ==== Sys2Proof/Machine/Register.lean ====
section
/-! DEFINITION. LDI and PRN (41_ldi.md, 42_prn.md). The operand bytes have been fetched (`Fetch`). -/

namespace Sys2Proof.Machine

/-- LDI Ra, imm: 41_ldi.md R83. All XLEN bits of the register are replaced. -/
def execLdi (a imm : Byte) (s : State) : Result :=
  match regIndex a with
  | none => raise s (some Opcode.ldi) .registerOutOfBounds a.toNat
  | some r => .next ((s.setReg r (zext imm)).advance 3)

/-- PRN Ra: 42_prn.md R86. -/
def execPrn (a : Byte) (s : State) : Result :=
  match regIndex a with
  | none => raise s (some Opcode.prn) .registerOutOfBounds a.toNat
  | some r => .next ((s.emit (s.reg r)).advance 2)

end Sys2Proof.Machine
end

