-- ==== Sys2Proof/Machine/Stack.lean ====
section
/-! DEFINITION. PUSH and POP (45_stack.md). No guard keeps the stack out of the program (R100). -/

namespace Sys2Proof.Machine

/-- PUSH Ra: 45_stack.md R97. The source register is read after the decrement, so PUSH R7 pushes the new SP; the
address is checked before the value. A fault leaves SP as it was: the copy `t` is dropped. -/
def execPush (a : Byte) (s : State) : Result :=
  match regIndex a with
  | none => raise s (some Opcode.push) .registerOutOfBounds a.toNat
  | some r =>
    let t := s.setReg SP (pushAddress s)
    let v := t.reg r
    if 255 < t.reg SP then raise s (some Opcode.push) .outOfBounds (t.reg SP)
    else if 255 < v then raise s (some Opcode.push) .valueTooWide v
    else .next ((t.setByte (t.reg SP) (BitVec.ofNat 8 v)).advance 2)

/-- POP Ra: 45_stack.md R98. R7 is incremented as it stands after the destination is written, so POP R7 leaves the
popped byte plus one. -/
def execPop (a : Byte) (s : State) : Result :=
  match regIndex a with
  | none => raise s (some Opcode.pop) .registerOutOfBounds a.toNat
  | some r =>
    match s.memRead (popAddress s) with
    | none => raise s (some Opcode.pop) .outOfBounds (popAddress s)
    | some v =>
      let t := s.setReg r (zext v)
      .next ((t.setReg SP (wrap t.xlen ((t.reg SP : Int) + 1))).advance 2)

end Sys2Proof.Machine
end

