-- ==== Sys2Proof/Machine/Fetch.lean ====
section
/-! DEFINITION. Fetching an instruction's bytes at pc (40_execution_engine.md R69 to R71). -/

namespace Sys2Proof.Machine

/-- The bytes at pc, pc+1 and pc+2, as many of them as have a valid address. Reading has no side effect
(20_memory.md R37), and the decoder uses only the bytes of the instruction itself (30_encoding.md R57). -/
def State.codeBytes (s : State) : List Byte :=
  ([0, 1, 2] : List Nat).filterMap fun k => s.memRead (s.pc + k)

/-- The instruction at pc, read from the memory as it stands (20_memory.md R48). -/
def fetch (s : State) : Except DecodeError (Instr × List Byte) := decode s.codeBytes

/-- The fault of a fetch, a decode or an operand read (40_execution_engine.md R69 to R71): OutOfBounds at the address
that has no byte, or IllegalOpcode. -/
def raiseFetchFault (s : State) : DecodeError → Result
  | .noOpcode => raise s none .outOfBounds s.pc
  | .illegalOpcode op => raise s (some op) .illegalOpcode op.toNat
  | .missingOperand op k => raise s (some op) .outOfBounds (s.pc + k)

/-- The bytes stored from `a` upward, less any that would fall past the last cell. -/
def State.storeCode (s : State) (a : Nat) (bs : List Byte) : State :=
  { s with mem := s.mem.writeBytes a (bs.take (Config.memSize - a)) }

end Sys2Proof.Machine
end

