-- ==== Sys2Proof/Machine/Step.lean ====
section
/-! DEFINITION. One step of the core: a whole fetch-decode-execute cycle (40_execution_engine.md R67, R75). -/

namespace Sys2Proof.Machine

/-- The step of 40_execution_engine.md R75. It is taken only while the status is Running (R68). -/
def step (s : State) : Host.Outcome State Fault Refusal :=
  match s.status with
  | .halted => .fault .halted
  | .faulted _ => .fault .faulted
  | .running =>
    match fetch s with
    | .error e => raiseFetchFault s e
    | .ok (i, _) => exec i s

/-- `s` with the instruction of a table word stored where the next fetch reads: at pc and upward. It is the load of
70_reset_and_hazards.md R119 for one instruction (log 6), and changes nothing but those cells. -/
def State.withFetchWord (s : State) (nbits w : Nat) : State :=
  s.storeCode s.pc (bytesOfTableWord maxLength (w % 2 ^ nbits))

end Sys2Proof.Machine
end

