-- ==== Sys2Proof/WellFormed.lean ====
section
/-! DEFINITION. When every register operand of an instruction names a register. -/

namespace Sys2Proof

/-- The byte names one of the eight registers (30_encoding.md R55: the whole byte is compared, never masked). -/
def namesRegister (b : Byte) : Bool := decide (b.toNat ≤ 7)

/-- Every register operand is 0..7 (30_encoding.md R61). These are the instructions an assembler can write (R64);
the others decode too, and raise RegisterOutOfBounds. Log 4. -/
def Instr.wellFormed (i : Instr) : Bool := i.regOperands.all namesRegister

/-- `wellFormed` as a proposition. -/
abbrev Instr.WellFormed (i : Instr) : Prop := i.wellFormed = true

end Sys2Proof
end

