-- ==== Sys2Proof/Machine/Asm.lean ====
section
/-! DEFINITION. The assembler syntax of 30_encoding.md R63 and R64, and the disassembly of R66. The core runs bytes; this
text is a way to write them (92_eei_decisions.md D19). A text is a list of characters. -/

namespace Sys2Proof.Machine

/-! ### Writing -/

/-- A register operand: `R0` to `R7`, or an out-of-range index, which is no assembler text (30_encoding.md R64, R66; its
spelling `index 8` is the model's, log 9). -/
def regText (b : Byte) : List Char :=
  (if namesRegister b then ['R'] else ['i', 'n', 'd', 'e', 'x', ' ']) ++ Nat.toDigits 10 b.toNat

/-- An immediate operand, in decimal (30_encoding.md R66). -/
def immText (b : Byte) : List Char := Nat.toDigits 10 b.toNat

/-- The mnemonics, upper case (30_encoding.md R63). -/
def mnemonicText : Instr → List Char
  | .ldi _ _ => ['L', 'D', 'I']
  | .prn _ => ['P', 'R', 'N']
  | .hlt => ['H', 'L', 'T']
  | .mul _ _ => ['M', 'U', 'L']
  | .push _ => ['P', 'U', 'S', 'H']
  | .pop _ => ['P', 'O', 'P']

/-- One instruction as a line of text (30_encoding.md R63). -/
def asmText (i : Instr) : List Char :=
  mnemonicText i ++
    match i with
    | .ldi a imm => ' ' :: regText a ++ [',', ' '] ++ immText imm
    | .prn a => ' ' :: regText a
    | .hlt => []
    | .mul a b => ' ' :: regText a ++ [',', ' '] ++ regText b
    | .push a => ' ' :: regText a
    | .pop a => ' ' :: regText a

/-- Walk a byte sequence instruction by instruction (30_encoding.md R66): those decoded, and what ended the walk
where it was not the end of the bytes. -/
def disassemble : Nat → List Byte → List Instr × Option DecodeError
  | 0, _ => ([], none)
  | fuel + 1, bytes =>
    match decode bytes with
    | .ok (i, rest) => (i :: (disassemble fuel rest).1, (disassemble fuel rest).2)
    | .error .noOpcode => ([], none)
    | .error e => ([], some e)

/-! ### Reading -/

/-- The value of a digit, if it is one in the base. -/
def digitValue (base : Nat) (c : Char) : Option Nat :=
  let n := c.toNat
  let v := if 48 ≤ n ∧ n ≤ 57 then n - 48 else if 65 ≤ n ∧ n ≤ 70 then n - 55 else if 97 ≤ n ∧ n ≤ 102 then n - 87 else base
  if v < base then some v else none

/-- The number that digits spell after `acc`, at most 255. -/
def readDigits (base : Nat) : List Char → Nat → Option Byte
  | [], acc => if acc ≤ 255 then some (BitVec.ofNat 8 acc) else none
  | c :: cs, acc =>
    match digitValue base c with
    | some d => readDigits base cs (acc * base + d)
    | none => none

/-- `imm`: a number from 0 to 255, in decimal or with `0x` or `0b` (30_encoding.md R63). -/
def readImm : List Char → Option Byte
  | [] => none
  | '0' :: 'x' :: c :: cs => readDigits 16 (c :: cs) 0
  | '0' :: 'b' :: c :: cs => readDigits 2 (c :: cs) 0
  | c :: cs => readDigits 10 (c :: cs) 0

/-- `Ra`: `R0` to `R7`, or `SP` for `R7` (30_encoding.md R63, R64). -/
def readReg : List Char → Option Byte
  | ['S', 'P'] => some 7
  | ['R', c] => (digitValue 8 c).map (BitVec.ofNat 8)
  | _ => none

/-- Cut a text at every `sep`; the pieces between, in order. -/
def splitAtChar (sep : Char) : List Char → List (List Char)
  | [] => [[]]
  | c :: cs =>
    if c = sep then [] :: splitAtChar sep cs
    else
      match splitAtChar sep cs with
      | [] => [[c]]
      | piece :: more => (c :: piece) :: more

/-- The text without the spaces at its start. -/
def dropSpaces : List Char → List Char
  | [] => []
  | c :: cs => if c = ' ' then dropSpaces cs else c :: cs

/-- The text without the spaces at its two ends. -/
def trimSpaces (t : List Char) : List Char := (dropSpaces (dropSpaces t).reverse).reverse

/-- One instruction. Operands are separated by a comma, and spaces may follow it (30_encoding.md R63). -/
def readInstr (t : List Char) : Option Instr :=
  let t := trimSpaces t
  let mnemonic := t.takeWhile (· ≠ ' ')
  let rest := dropSpaces (t.dropWhile (· ≠ ' '))
  let operands := if rest = [] then [] else (splitAtChar ',' rest).map dropSpaces
  match mnemonic, operands with
  | ['L', 'D', 'I'], [a, imm] => (readReg a).bind fun a => (readImm imm).map fun imm => .ldi a imm
  | ['P', 'R', 'N'], [a] => (readReg a).map .prn
  | ['H', 'L', 'T'], [] => some .hlt
  | ['M', 'U', 'L'], [a, b] => (readReg a).bind fun a => (readReg b).map fun b => .mul a b
  | ['P', 'U', 'S', 'H'], [a] => (readReg a).map .push
  | ['P', 'O', 'P'], [a] => (readReg a).map .pop
  | _, _ => none

/-- The instructions of pieces of text, skipping the blank ones. -/
def readPieces : List (List Char) → Option (List Instr)
  | [] => some []
  | t :: ts =>
    if trimSpaces t = [] then readPieces ts
    else (readInstr t).bind fun i => (readPieces ts).map fun is => i :: is

/-- One line: `#` starts a comment, and `;` separates instructions (30_encoding.md R63). -/
def readLine (t : List Char) : Option (List Instr) :=
  readPieces (splitAtChar ';' (t.takeWhile (· ≠ '#')))

/-- A program, line by line; none if a line is no assembler text. -/
def readProgram : List (List Char) → Option (List Instr)
  | [] => some []
  | t :: ts => (readLine t).bind fun is => (readProgram ts).map fun rest => is ++ rest

end Sys2Proof.Machine
end

