-- ==== Sys2Proof/Machine/Flags.lean ====
section
/-! DEFINITION. The core has no flags register and no condition codes, and no instruction writes a flag
(10_state.md R23). What it has is the running flag and the termination status, as the host sees them. -/

namespace Sys2Proof.Machine

/-- The running flag is `status != Halted` (10_state.md R24, R26, R28): a fault does not clear it. -/
def State.runningFlag (s : State) : Bool := decide (s.status ≠ .halted)

/-- The fault codes of the status interface (60_exceptions.md R102). -/
def FaultKind.code : FaultKind → Nat
  | .outOfBounds => 1
  | .illegalOpcode => 2
  | .unsupportedOperation => 3
  | .registerOutOfBounds => 4
  | .valueTooWide => 5
  | .loadFailure => 6

/-- The fault code of a status; 0 is not a fault (60_exceptions.md R102). -/
def Status.faultCode : Status → Nat
  | .running => 0
  | .halted => 0
  | .faulted record => record.kind.code

end Sys2Proof.Machine
end

