-- ==== Sys2Proof/Machine/Run.lean ====
section
/-! DEFINITION. The core's interfaces to its host (10_state.md R32): the load, the run, the status and the output. -/

namespace Sys2Proof.Machine

/-- `load(bytes)`: write the bytes from address 0 upward, at most 256 of them (70_reset_and_hazards.md R119); a longer
program is a LoadFailure (R121). -/
def State.load (s : State) (bytes : List Byte) : Except FaultKind State :=
  if Config.memSize < bytes.length then .error .loadFailure
  else .ok { s with mem := s.mem.writeBytes 0 bytes }

/-- A machine of width `xlen`, built and loaded once, ready for its first step (70_reset_and_hazards.md R120, R124). After
a LoadFailure the core never starts (60_exceptions.md R111). -/
def boot (xlen : Nat) (bytes : List Byte) : Except FaultKind State := (State.resetAt xlen).load bytes

/-- The run loop: while the status is Running, take a step (40_execution_engine.md R80), at most `fuel` times. -/
def run : Nat → State → State
  | 0, s => s
  | fuel + 1, s =>
    match step s with
    | .next t => run fuel t
    | .fault _ => s
    | .refused _ => s

/-- The output as the host shows it: one unsigned decimal a line, no leading zeros, in order (42_prn.md R85). -/
def State.outputLines (s : State) : List String := s.out.map Nat.repr

end Sys2Proof.Machine
end

