-- ==== Sys2Proof/Safety.lean ====
section
/-! DEFINITION. The terms claims are made in: the invariant of the core, a completed instruction, a taken fault, and
what an instruction may leave changed. -/

namespace Sys2Proof.Machine

/-- The invariant of the core: XLEN is at least 9 (00_scope.md R9), memory is in canonical form, every register and
every emitted value has XLEN bits (10_state.md R15, R27), pc is in 0..256 (10_state.md R22), and a fault record's pc is
that of the stopped core (40_execution_engine.md R74, 60_exceptions.md R103). -/
structure State.Inv (s : State) : Prop where
  xlen_ge : 9 ≤ s.xlen
  mem_wf : s.mem.wf = true
  reg_lt : ∀ r : Fin 8, s.reg r < 2 ^ s.xlen
  pc_le : s.pc ≤ 256
  out_lt : ∀ v ∈ s.out, v < 2 ^ s.xlen
  record_pc : ∀ record, s.status = .faulted record → record.pc = s.pc

/-- The status carries a fault record (10_state.md R26). -/
def State.isFaulted (s : State) : Prop := ∃ record, s.status = .faulted record

/-- The bytes of the instruction `i` stand at pc and upward: what the core fetches is `i`. -/
def State.Fetches (s : State) (i : Instr) : Prop :=
  ∀ (k : Nat) (b : Byte), (encode i)[k]? = some b → s.memRead (s.pc + k) = some b

/-- Nothing but the listed registers has changed, no memory cell, no output, and neither the status nor XLEN; pc has
moved by `len` (10_state.md R31, 40_execution_engine.md R72). -/
structure RegisterFrame (s t : State) (written : List (Fin 8)) (len : Nat) : Prop where
  reg : ∀ r, r ∉ written → t.reg r = s.reg r
  mem : ∀ a, t.memRead a = s.memRead a
  pc : t.pc = s.pc + len
  status : t.status = s.status
  out : t.out = s.out
  xlen : t.xlen = s.xlen

/-- `r` takes the fault: the status carries exactly this record, and no output is emitted. Register and memory contents
of a Faulted core are left unsaid, as 40_execution_engine.md R79 asks of a claim. -/
def TakesFault (r : Result) (s : State) (opcode : Option Byte) (kind : FaultKind) (info : Nat) : Prop :=
  ∃ t, r = .next t ∧ t.status = .faulted { kind := kind, pc := s.pc, opcode := opcode, info := info } ∧ t.out = s.out

end Sys2Proof.Machine
end

