-- ==== Sys2Proof/Certificates/Slice0/Obligations.lean ====
section
/-! DEFINITION. The statements about the core, for the provers. Each docstring names the rule of spec/ it formalises. -/

open Sys2Proof Sys2Proof.Machine

/-! ### Reset and load -/

/-- 70_reset_and_hazards.md R118 (with 10_state.md R18, R19): the reset state, piece by piece, at every width. -/
def Obligations.ResetStateHolds : Prop :=
  ∀ xlen : Nat,
    (∀ a, a ≤ 255 → (State.resetAt xlen).memRead a = some 0#8) ∧
    (∀ r : Fin 8, r ≠ SP → (State.resetAt xlen).reg r = 0) ∧ (State.resetAt xlen).reg SP = 256 ∧
    (State.resetAt xlen).pc = 0 ∧ (State.resetAt xlen).runningFlag = true ∧
    (State.resetAt xlen).status = .running ∧ (State.resetAt xlen).out = []

/-- 00_scope.md R9, 10_state.md R19: the reset state meets the invariant at every legal width. That
State.reset has the reference width 16 is the model's choice among them, log 1. -/
def Obligations.ResetMeetsInvariant : Prop :=
  (∀ xlen, 9 ≤ xlen → (State.resetAt xlen).Inv) ∧ State.reset.xlen = 16 ∧ State.reset.Inv

/-- 70_reset_and_hazards.md R119: the load writes the bytes from address 0, leaves every other cell 0, and changes no
register, pc, status or output. -/
def Obligations.LoadWritesFromAddressZero : Prop :=
  ∀ (xlen : Nat) (bytes : List Byte), bytes.length ≤ 256 →
    ∃ s, boot xlen bytes = .ok s ∧ (∀ a ≤ 255, s.memRead a = some (bytes[a]?.getD 0#8)) ∧
      (∀ r, s.reg r = (State.resetAt xlen).reg r) ∧ s.pc = (State.resetAt xlen).pc ∧
      s.status = (State.resetAt xlen).status ∧ s.out = (State.resetAt xlen).out

/-- 70_reset_and_hazards.md R121: a program of more than 256 bytes is a LoadFailure; an empty one loads, and its first
step is IllegalOpcode 0x00. -/
def Obligations.LoadTooLongFailsAndEmptyLoads : Prop :=
  (∀ (xlen : Nat) (bytes : List Byte), 256 < bytes.length → boot xlen bytes = .error .loadFailure) ∧
  ∀ xlen, ∃ s, boot xlen [] = .ok s ∧ TakesFault (step s) s (some 0x00#8) .illegalOpcode 0

/-! ### Encoding -/

/-- 30_encoding.md R58: words written out bit by bit from the opcode map decode to the instructions they stand for. -/
def Obligations.WrittenOutWordsDecode : Prop :=
  decode [0b10000010#8, 0x03#8, 0xFF#8] = .ok (.ldi 3 255, []) ∧ decode [0b01000111#8, 0x07#8] = .ok (.prn 7, []) ∧
  decode [0b00000001#8, 0x47#8] = .ok (.hlt, [0x47#8]) ∧ decode [0b10100010#8, 0x02#8, 0x08#8] = .ok (.mul 2 8, []) ∧
  decode [0b01000101#8, 0x01#8] = .ok (.push 1, []) ∧ decode [0b01000110#8, 0x06#8] = .ok (.pop 6, [])

/-- 30_encoding.md R51 to R58: bytes decode to an instruction exactly when they begin with its encoding, for every
instruction with any operand bytes, and what follows is left over. So no bit of an encoding is dropped, and nothing but an
encoding decodes. -/
def Obligations.DecodesExactlyItsEncoding : Prop :=
  ∀ (bytes rest : List Byte) (i : Instr), decode bytes = .ok (i, rest) ↔ bytes = encode i ++ rest

/-- 30_encoding.md R66: disassembling an assembled program (R65) gives the program back. -/
def Obligations.DisassemblyOfAssembly : Prop :=
  ∀ prog : List Instr, disassemble (prog.length + 1) (assemble prog) = (prog, none)

/-- 30_encoding.md R63: the assembler reads back the text of every instruction it can write. -/
def Obligations.AssemblerReadsItsText : Prop :=
  ∀ i : Instr, i.WellFormed → readInstr (asmText i) = some i

/-- 30_encoding.md R64: an assembler cannot name a register index of 8 or more. -/
def Obligations.AssemblerNamesOnlyRegisters : Prop :=
  ∀ (text : List Char) (i : Instr), readInstr text = some i → i.WellFormed

/-! ### The step -/

/-- 40_execution_engine.md R75: when the bytes of an instruction stand at pc, a step of a Running core is that
instruction's `exec`. -/
def Obligations.StepRunsFetchedInstruction : Prop :=
  ∀ (s : State) (i : Instr), s.status = .running → s.Fetches i → step s = exec i s

/-- 40_execution_engine.md R68: a step is taken only while the status is Running; a Halted or Faulted core has none. -/
def Obligations.OnlyRunningCoreSteps : Prop :=
  ∀ s : State, ((∃ t, step s = .next t) ↔ s.status = .running) ∧ (s.status = .halted → step s = .fault .halted) ∧
    ∀ record, s.status = .faulted record → step s = .fault .faulted

/-- 40_execution_engine.md R70, 30_encoding.md R60: a byte that is none of the six opcodes raises IllegalOpcode, and
nothing but the status changes. -/
def Obligations.IllegalOpcodeStops : Prop :=
  ∀ (s : State) (op : Byte), s.status = .running → s.memRead s.pc = some op →
    op ∉ ([0x82#8, 0x47#8, 0x01#8, 0xA2#8, 0x45#8, 0x46#8] : List Byte) →
    step s = .next { s with
      status := .faulted { kind := .illegalOpcode, pc := s.pc, opcode := some op, info := op.toNat } }

/-- 40_execution_engine.md R72: pc advances once per completed instruction, by its length, and a step that faults does not
advance it. -/
def Obligations.PcAdvancesByLength : Prop :=
  (∀ s t : State, step s = .next t → ¬ t.isFaulted →
    ∃ i : Instr, s.Fetches i ∧ t.pc = s.pc + i.length) ∧
  (∀ s t : State, step s = .next t → t.isFaulted → t.pc = s.pc) ∧
  Instr.hlt.length = 1 ∧ ∀ a b : Byte, (Instr.prn a).length = 2 ∧ (Instr.push a).length = 2 ∧ (Instr.pop a).length = 2 ∧
    (Instr.ldi a b).length = 3 ∧ (Instr.mul a b).length = 3

/-- 40_execution_engine.md R74: a step that faults changes nothing but the status. A claim about a program may read only
the status, the record and the output of a Faulted core (R79); this one is about the rule itself. -/
def Obligations.FaultIsAllOrNothing : Prop :=
  ∀ (s t : State) (record : FaultRecord), step s = .next t → t.status = .faulted record →
    t = { s with status := .faulted record }

/-- 60_exceptions.md R103, R107: the record names the address of the faulting instruction and the opcode fetched there, or
no opcode where the fetch itself faulted. -/
def Obligations.FaultRecordIsPrecise : Prop :=
  ∀ (s t : State) (record : FaultRecord), step s = .next t → t.status = .faulted record →
    record.pc = s.pc ∧ record.opcode = s.memRead s.pc

/-- 60_exceptions.md R105: the first check that fails, in this order, is the fault reported: fetch, decode, operand bytes,
register indices in operand order, stack address, pushed value. Where none fails, the step does not fault. -/
def Obligations.FaultPriorityOrder : Prop :=
  ∀ s : State, s.status = .running →
    (255 < s.pc → TakesFault (step s) s none .outOfBounds s.pc) ∧
    (∀ op, s.memRead s.pc = some op → (∀ i : Instr, i.opcode ≠ op) →
      TakesFault (step s) s (some op) .illegalOpcode op.toNat) ∧
    (∀ i : Instr, s.memRead s.pc = some i.opcode → 256 < s.pc + i.length →
      TakesFault (step s) s (some i.opcode) .outOfBounds 256) ∧
    ∀ i : Instr, s.Fetches i →
      (∀ b, i.regOperands.find? (fun b => decide (7 < b.toNat)) = some b →
        TakesFault (step s) s (some i.opcode) .registerOutOfBounds b.toNat) ∧
      (∀ a (r : Fin 8), i = .push a → a.toNat = r.val →
        if 255 < pushAddress s then TakesFault (step s) s (some i.opcode) .outOfBounds (pushAddress s)
        else if r ≠ SP ∧ 255 < s.reg r then TakesFault (step s) s (some i.opcode) .valueTooWide (s.reg r)
        else ∃ t, step s = .next t ∧ ¬ t.isFaulted) ∧
      (∀ a (r : Fin 8), i = .pop a → a.toNat = r.val →
        if 255 < popAddress s then TakesFault (step s) s (some i.opcode) .outOfBounds (popAddress s)
        else ∃ t, step s = .next t ∧ ¬ t.isFaulted) ∧
      (i.WellFormed → (∀ a, i ≠ .push a) → (∀ a, i ≠ .pop a) → ∃ t, step s = .next t ∧ ¬ t.isFaulted)

/-- 44_alu.md R92, 60_exceptions.md R104, R111: no step raises UnsupportedOperation or LoadFailure. -/
def Obligations.NoStepRaisesUnsupportedOrLoadFailure : Prop :=
  ∀ (s t : State) (record : FaultRecord), step s = .next t → t.status = .faulted record →
    record.kind ≠ .unsupportedOperation ∧ record.kind ≠ .loadFailure

/-- 30_encoding.md R55, R61: an instruction raises RegisterOutOfBounds exactly when some register operand is above 7. -/
def Obligations.RegisterFaultExactlyWhenIllFormed : Prop :=
  ∀ (i : Instr) (s t : State), s.status = .running → exec i s = .next t →
    ((∃ record, t.status = .faulted record ∧ record.kind = .registerOutOfBounds) ↔ ¬ i.WellFormed)

/-! ### The six instructions -/

/-- 41_ldi.md R83: LDI, its encoding, its result, its faults, and what it leaves unchanged. Register 7 is no exception. -/
def Obligations.LdiRule : Prop :=
  ∀ (s : State) (a imm : Byte),
    asmText (.ldi a imm) = ['L', 'D', 'I', ' '] ++ regText a ++ [',', ' '] ++ immText imm ∧
    encode (.ldi a imm) = [0x82#8, a, imm] ∧
    (∀ r : Fin 8, a.toNat = r.val →
      ∃ t, exec (.ldi a imm) s = .next t ∧ t.reg r = imm.toNat ∧ RegisterFrame s t [r] 3) ∧
    (7 < a.toNat → TakesFault (exec (.ldi a imm) s) s (some 0x82#8) .registerOutOfBounds a.toNat) ∧
    (s.status = .running → s.memRead s.pc = some 0x82#8 → 254 ≤ s.pc →
      TakesFault (step s) s (some 0x82#8) .outOfBounds 256)

/-- 42_prn.md R86: PRN appends the whole register value to the output and changes no register and no memory. -/
def Obligations.PrnRule : Prop :=
  ∀ (s : State) (a : Byte),
    asmText (.prn a) = ['P', 'R', 'N', ' '] ++ regText a ∧
    encode (.prn a) = [0x47#8, a] ∧
    (∀ r : Fin 8, a.toNat = r.val →
      ∃ t, exec (.prn a) s = .next t ∧ t.out = s.out ++ [s.reg r] ∧ (∀ q, t.reg q = s.reg q) ∧
        (∀ c, t.memRead c = s.memRead c) ∧ t.pc = s.pc + 2 ∧ t.status = s.status ∧ t.xlen = s.xlen) ∧
    (7 < a.toNat → TakesFault (exec (.prn a) s) s (some 0x47#8) .registerOutOfBounds a.toNat) ∧
    (s.status = .running → s.memRead s.pc = some 0x47#8 → s.pc = 255 →
      TakesFault (step s) s (some 0x47#8) .outOfBounds 256)

/-- 43_hlt.md R87: HLT clears the running flag and advances pc, everything else as it was; it completes at
address 255 too, and no step follows it. -/
def Obligations.HltRule : Prop :=
  asmText .hlt = ['H', 'L', 'T'] ∧ encode .hlt = [0x01#8] ∧
  (∀ s : State, ∃ t, exec .hlt s = .next t ∧ t.status = .halted ∧ t.runningFlag = false ∧ t.pc = s.pc + 1 ∧
    (∀ q, t.reg q = s.reg q) ∧ (∀ c, t.memRead c = s.memRead c) ∧ t.out = s.out ∧ t.xlen = s.xlen ∧
    step t = .fault .halted) ∧
  ∀ s : State, s.status = .running → s.memRead s.pc = some 0x01#8 → step s = exec .hlt s

/-- 44_alu.md R93: MUL keeps the low XLEN bits of the product, writes no other register, and checks operand_a's index
before operand_b's. -/
def Obligations.MulRule : Prop :=
  ∀ (s : State) (a b : Byte),
    asmText (.mul a b) = ['M', 'U', 'L', ' '] ++ regText a ++ [',', ' '] ++ regText b ∧
    encode (.mul a b) = [0xA2#8, a, b] ∧
    (∀ d r : Fin 8, a.toNat = d.val → b.toNat = r.val →
      ∃ t, exec (.mul a b) s = .next t ∧ t.reg d = (s.reg d * s.reg r) % 2 ^ s.xlen ∧ RegisterFrame s t [d] 3) ∧
    (7 < a.toNat → TakesFault (exec (.mul a b) s) s (some 0xA2#8) .registerOutOfBounds a.toNat) ∧
    (a.toNat ≤ 7 → 7 < b.toNat → TakesFault (exec (.mul a b) s) s (some 0xA2#8) .registerOutOfBounds b.toNat) ∧
    (s.status = .running → s.memRead s.pc = some 0xA2#8 → 254 ≤ s.pc →
      TakesFault (step s) s (some 0xA2#8) .outOfBounds 256)

/-- 45_stack.md R97: PUSH stores one byte at the decremented SP, and nothing else in memory changes; PUSH R7 stores the
new SP. It faults at SP = 0, at SP ≥ 257 and on a value above 255, and on any fault SP keeps its old value. -/
def Obligations.PushRule : Prop :=
  ∀ (s : State) (a : Byte), s.Inv →
    asmText (.push a) = ['P', 'U', 'S', 'H', ' '] ++ regText a ∧
    encode (.push a) = [0x45#8, a] ∧
    pushAddress s = (if s.reg SP = 0 then 2 ^ s.xlen - 1 else s.reg SP - 1) ∧
    (∀ (r : Fin 8) (v : Nat), a.toNat = r.val → v = (if r = SP then pushAddress s else s.reg r) →
      1 ≤ s.reg SP → s.reg SP ≤ 256 → v ≤ 255 →
      ∃ t, exec (.push a) s = .next t ∧ t.reg SP = s.reg SP - 1 ∧ (∀ q, q ≠ SP → t.reg q = s.reg q) ∧
        (∀ c, t.memRead c = if c = pushAddress s then some (BitVec.ofNat 8 v) else s.memRead c) ∧
        t.pc = s.pc + 2 ∧ t.status = s.status ∧ t.out = s.out ∧ t.xlen = s.xlen) ∧
    (7 < a.toNat → TakesFault (exec (.push a) s) s (some 0x45#8) .registerOutOfBounds a.toNat) ∧
    (a.toNat ≤ 7 → s.reg SP = 0 ∨ 257 ≤ s.reg SP →
      TakesFault (exec (.push a) s) s (some 0x45#8) .outOfBounds (pushAddress s)) ∧
    (∀ r : Fin 8, a.toNat = r.val → r ≠ SP → 1 ≤ s.reg SP → s.reg SP ≤ 256 → 255 < s.reg r →
      TakesFault (exec (.push a) s) s (some 0x45#8) .valueTooWide (s.reg r)) ∧
    (∀ (t : State) (record : FaultRecord), s.status = .running → exec (.push a) s = .next t →
      t.status = .faulted record → t.reg SP = s.reg SP) ∧
    (s.status = .running → s.memRead s.pc = some 0x45#8 → s.pc = 255 →
      TakesFault (step s) s (some 0x45#8) .outOfBounds 256)

/-- 45_stack.md R98: POP reads the cell at SP, writes the zero-extended byte, then increments R7 as it stands; memory is
unchanged. It faults at SP above 255. -/
def Obligations.PopRule : Prop :=
  ∀ (s : State) (a : Byte), s.Inv →
    asmText (.pop a) = ['P', 'O', 'P', ' '] ++ regText a ∧
    encode (.pop a) = [0x46#8, a] ∧
    (∀ r : Fin 8, a.toNat = r.val → s.reg SP ≤ 255 →
      ∃ v t, s.memRead (s.reg SP) = some v ∧ exec (.pop a) s = .next t ∧
        (r ≠ SP → t.reg r = v.toNat ∧ t.reg SP = s.reg SP + 1) ∧ (r = SP → t.reg SP = v.toNat + 1) ∧
        RegisterFrame s t [r, SP] 2) ∧
    (7 < a.toNat → TakesFault (exec (.pop a) s) s (some 0x46#8) .registerOutOfBounds a.toNat) ∧
    (a.toNat ≤ 7 → 255 < s.reg SP → TakesFault (exec (.pop a) s) s (some 0x46#8) .outOfBounds (s.reg SP)) ∧
    (s.status = .running → s.memRead s.pc = some 0x46#8 → s.pc = 255 →
      TakesFault (step s) s (some 0x46#8) .outOfBounds 256)

/-- 45_stack.md R99, as a law of the two instructions' effects: what PUSH Ra then POP Rb leave, in each of the cases the
rule names. (Whether the second fetch still finds the POP is a matter of where the stack stands, R126.) -/
def Obligations.PushThenPop : Prop :=
  ∀ (s : State) (a b : Byte) (r q : Fin 8), s.Inv → a.toNat = r.val → b.toNat = q.val →
    (1 ≤ s.reg SP → s.reg SP ≤ 256 → (r ≠ SP → s.reg r ≤ 255) →
      ∃ t u, exec (.push a) s = .next t ∧ exec (.pop b) t = .next u ∧
        (r ≠ SP → q ≠ SP → u.reg q = s.reg r ∧ u.reg SP = s.reg SP) ∧
        (r = SP → q ≠ SP → u.reg q = s.reg SP - 1 ∧ u.reg SP = s.reg SP) ∧
        (r ≠ SP → q = SP → u.reg SP = s.reg r + 1)) ∧
    (1 ≤ s.reg SP → s.reg SP ≤ 256 → r ≠ SP → 255 < s.reg r →
      TakesFault (exec (.push a) s) s (some 0x45#8) .valueTooWide (s.reg r)) ∧
    (s.reg SP = 0 → TakesFault (exec (.push a) s) s (some 0x45#8) .outOfBounds (2 ^ s.xlen - 1))

/-- 41_ldi.md R84: LDI(r, v) followed immediately by PRN(r) emits exactly v. -/
def Obligations.LdiThenPrnEmits : Prop :=
  ∀ (s : State) (a imm : Byte), s.status = .running → a.toNat ≤ 7 → s.Fetches (.ldi a imm) →
    s.memRead (s.pc + 3) = some 0x47#8 → s.memRead (s.pc + 4) = some a →
    ∃ t u, step s = .next t ∧ step t = .next u ∧ u.out = s.out ++ [imm.toNat] ∧ u.pc = s.pc + 5 ∧ u.status = .running

/-- 20_memory.md R48, 70_reset_and_hazards.md R127: a byte PUSH writes at the next instruction's address is what the next
step fetches, whatever stood there; nothing guards the program from the stack (45_stack.md R100). -/
def Obligations.PushedByteIsFetchedNext : Prop :=
  ∀ (s : State) (a : Byte) (r : Fin 8) (i : Instr), s.Inv → s.status = .running → s.Fetches (.push a) →
    a.toNat = r.val → r ≠ SP → pushAddress s = s.pc + 2 → s.pc + 2 ≤ 255 → s.reg r = i.opcode.toNat →
    (∀ (k : Nat) (b : Byte), i.operands[k]? = some b → s.memRead (s.pc + 3 + k) = some b) →
    ∃ t, step s = .next t ∧ t.pc = s.pc + 2 ∧ step t = exec i t

/-! ### The ALU -/

/-- 44_alu.md R89, R90: ALU ADD and MUL keep the low XLEN bits of the sum and of the product, and write only the
destination register. -/
def Obligations.AluAddAndMul : Prop :=
  ∀ (d r : Fin 8) (s : State),
    (∃ t, aluApply .add d r s = .ok t ∧ t.reg d = (s.reg d + s.reg r) % 2 ^ s.xlen ∧ RegisterFrame s t [d] 0) ∧
    ∃ t, aluApply .mul d r s = .ok t ∧ t.reg d = (s.reg d * s.reg r) % 2 ^ s.xlen ∧ RegisterFrame s t [d] 0

/-- 44_alu.md R91: every other operation tag, SUB among them, is an UnsupportedOperation. -/
def Obligations.AluRejectsOtherTags : Prop :=
  ∀ (op : AluOp) (d r : Fin 8) (s : State), op ≠ .add → op ≠ .mul → aluApply op d r s = .error op

/-! ### The whole machine -/

/-- The invariant of the core is kept by every step, from every state that meets it: XLEN-bit registers and output
(10_state.md R15, R27), pc in 0..256 (R22), memory of 256 cells in canonical form (20_memory.md R34). -/
def Obligations.StepKeepsInvariant : Prop := ∀ s t : State, s.Inv → step s = .next t → t.Inv

/-- 10_state.md R29: XLEN is no state of the core. The model keeps it in a field (log 1), which no step changes. -/
def Obligations.StepKeepsWidth : Prop := ∀ s t : State, step s = .next t → t.xlen = s.xlen

/-- 10_state.md R24, R25: only HLT clears the running flag, and the transition to Halted occurs only inside it. -/
def Obligations.OnlyHltClearsRunningFlag : Prop :=
  ∀ s t : State, step s = .next t →
    (t.runningFlag = false ↔ s.memRead s.pc = some 0x01#8) ∧ (t.status = .halted ↔ s.memRead s.pc = some 0x01#8)

/-- 10_state.md R27, R31, 42_prn.md R85: only PRN changes the output, and it appends the named register's value. -/
def Obligations.OnlyPrnEmits : Prop :=
  ∀ s t : State, step s = .next t → t.out ≠ s.out →
    ∃ (a : Byte) (r : Fin 8), s.Fetches (.prn a) ∧ a.toNat = r.val ∧ t.out = s.out ++ [s.reg r]

/-- 20_memory.md R46, 10_state.md R31: only PUSH writes memory, and only the cell at its decremented SP. -/
def Obligations.OnlyPushWritesMemory : Prop :=
  ∀ (s t : State) (c : Nat), s.Inv → step s = .next t → t.memRead c ≠ s.memRead c →
    c = pushAddress s ∧ ∃ a, s.Fetches (.push a)

/-- 10_state.md R31: a step changes no register but the destination of LDI, MUL and POP, and SP for PUSH and POP. -/
def Obligations.OnlyNamedRegistersChange : Prop :=
  ∀ (s t : State) (q : Fin 8), step s = .next t → t.reg q ≠ s.reg q →
    ∃ i : Instr, s.Fetches i ∧
      ((∃ a imm : Byte, i = .ldi a imm ∧ a.toNat = q.val) ∨ (∃ a b : Byte, i = .mul a b ∧ a.toNat = q.val) ∨
        (∃ a : Byte, i = .push a ∧ q = SP) ∨ ∃ a : Byte, i = .pop a ∧ (a.toNat = q.val ∨ q = SP))

/-- 40_execution_engine.md R78: every run ends. From any state with pc in 0..256, at most 256 steps end with the status
Running, each of them with pc further on, and a run of 257 steps or more is over and does not change again. -/
def Obligations.EveryRunEnds : Prop :=
  ∀ s : State, s.pc ≤ 256 →
    (∀ k, (run k s).status = .running → k ≤ 256 ∧ s.pc + k ≤ (run k s).pc) ∧
    ∀ n, 257 ≤ n → (run n s).status ≠ .running ∧ run n s = run 257 s
end

