-- ==== Sys2Proof/Laws/Decode.lean ====
section
/-! SUPPORT. The opcode map, said once. -/

namespace Sys2Proof

/-- The opcode map is exactly the table of 30_encoding.md R58. -/
theorem lookupOpcode_cases (op : Byte) :
    (op = Opcode.ldi ∧ lookupOpcode op = some (.f2 .ldi)) ∨ (op = Opcode.prn ∧ lookupOpcode op = some (.f1 .prn)) ∨
    (op = Opcode.hlt ∧ lookupOpcode op = some (.f0 .hlt)) ∨ (op = Opcode.mul ∧ lookupOpcode op = some (.f2 .mul)) ∨
    (op = Opcode.push ∧ lookupOpcode op = some (.f1 .push)) ∨ (op = Opcode.pop ∧ lookupOpcode op = some (.f1 .pop)) ∨
    ((∀ i : Instr, i.opcode ≠ op) ∧ lookupOpcode op = none) := by
  unfold lookupOpcode
  split_ifs with h1 h2 h3 h4 h5 h6 <;> simp_all
  intro i
  cases i <;> simp_all [Instr.opcode, eq_comm]

@[simp] theorem lookupOpcode_ldi : lookupOpcode Opcode.ldi = some (.f2 .ldi) := rfl
@[simp] theorem lookupOpcode_prn : lookupOpcode Opcode.prn = some (.f1 .prn) := rfl
@[simp] theorem lookupOpcode_hlt : lookupOpcode Opcode.hlt = some (.f0 .hlt) := rfl
@[simp] theorem lookupOpcode_mul : lookupOpcode Opcode.mul = some (.f2 .mul) := rfl
@[simp] theorem lookupOpcode_push : lookupOpcode Opcode.push = some (.f1 .push) := rfl
@[simp] theorem lookupOpcode_pop : lookupOpcode Opcode.pop = some (.f1 .pop) := rfl

@[simp] theorem decode_nil : decode [] = .error .noOpcode := rfl

/-- A byte without an entry in the opcode map is rejected whatever follows it (30_encoding.md R53, R60). -/
theorem decode_of_lookup_none {op : Byte} (h : lookupOpcode op = none) (rest : List Byte) :
    decode (op :: rest) = .error (.illegalOpcode op) := by
  simp [decode, h]

theorem namesRegister_iff {b : Byte} : namesRegister b = true ↔ b.toNat ≤ 7 := by simp [namesRegister]

/-- An instruction is 1, 2 or 3 bytes long (30_encoding.md R51). -/
theorem Instr.length_bounds (i : Instr) : 1 ≤ i.length ∧ i.length ≤ 3 := by
  cases i <;> simp [Instr.length, Instr.operands]

end Sys2Proof
end

