-- ==== Sys2Proof/Laws/Memory.lean ====
section
/-! SUPPORT. Memory: what a read sees after a write, and that every operation keeps the canonical form. -/

namespace Sys2Proof.Machine

@[simp] theorem Config.memSize_eq : Config.memSize = 256 := rfl

@[simp] theorem Memory.read_nil (a : Nat) : Memory.read [] a = Config.unwrittenCell := rfl

theorem Memory.read_cons (k : Nat) (b : Byte) (m : Memory) (a : Nat) :
    Memory.read ((k, b) :: m) a = if k = a then b else Memory.read m a := rfl

theorem Memory.wfFrom_cons (lo k : Nat) (b : Byte) (m : Memory) :
    Memory.wfFrom lo ((k, b) :: m) = true ↔
      lo ≤ k ∧ k < 256 ∧ b ≠ Config.unwrittenCell ∧ Memory.wfFrom (k + 1) m = true := by
  simp only [Memory.wfFrom, Bool.and_eq_true, decide_eq_true_eq, and_assoc]
  exact Iff.rfl

theorem Memory.wfFrom_mono {lo lo' : Nat} (h : lo' ≤ lo) : ∀ {m : Memory}, m.wfFrom lo = true → m.wfFrom lo' = true
  | [], _ => rfl
  | (k, b) :: m, hm => by
    rw [Memory.wfFrom_cons] at hm ⊢
    exact ⟨h.trans hm.1, hm.2⟩

/-- Below the first listed address, memory holds the reset contents. -/
theorem Memory.read_of_lt : ∀ {m : Memory} {lo a : Nat}, m.wfFrom lo = true → a < lo → Memory.read m a = Config.unwrittenCell
  | [], _, _, _, _ => rfl
  | (k, b) :: m, lo, a, hm, ha => by
    rw [Memory.wfFrom_cons] at hm
    rw [Memory.read_cons, if_neg (by omega)]
    exact Memory.read_of_lt hm.2.2.2 (by omega)

/-- Listing a cell in front of memory that has nothing listed at its address. -/
theorem Memory.read_cell_append {a : Nat} {m : Memory} (h : m.read a = Config.unwrittenCell) (v : Byte) (c : Nat) :
    Memory.read (Memory.cell a v ++ m) c = if c = a then v else Memory.read m c := by
  unfold Memory.cell
  by_cases hc : c = a
  · subst hc
    by_cases hv : v = Config.unwrittenCell
    · simp [hv, h]
    · simp [hv, Memory.read_cons]
  · by_cases hv : v = Config.unwrittenCell
    · simp [hv, hc]
    · simp [hv, Memory.read_cons, hc, Ne.symm hc]

/-- A read after a write: the value at the address written, and the old contents everywhere else
(20_memory.md R38, R45). -/
theorem Memory.read_write : ∀ {m : Memory} {lo : Nat}, m.wfFrom lo = true → ∀ (a : Nat) (v : Byte) (c : Nat),
    (m.write a v).read c = if c = a then v else Memory.read m c
  | [], _, _, a, v, c => by
    rw [Memory.write, ← List.append_nil (Memory.cell a v), Memory.read_cell_append (Memory.read_nil a)]
  | (k, b) :: m, lo, hm, a, v, c => by
    have hm' := (Memory.wfFrom_cons ..).mp hm
    unfold Memory.write
    by_cases h1 : a < k
    · rw [if_pos h1]
      exact Memory.read_cell_append (Memory.read_of_lt ((Memory.wfFrom_cons k ..).mpr ⟨le_rfl, hm'.2⟩) h1) v c
    rw [if_neg h1]
    by_cases h2 : a = k
    · subst h2
      rw [if_pos rfl, Memory.read_cell_append (Memory.read_of_lt hm'.2.2.2 (Nat.lt_succ_self a)), Memory.read_cons]
      by_cases hc : c = a
      · simp [hc]
      · simp [hc, Ne.symm hc]
    · rw [if_neg h2, Memory.read_cons, Memory.read_cons, Memory.read_write hm'.2.2.2 a v c]
      by_cases hk : k = c
      · simp [hk, show c ≠ a by omega]
      · simp [hk]

theorem Memory.wfFrom_cell_append {lo a : Nat} {v : Byte} {m : Memory} (hlo : lo ≤ a) (ha : a < 256)
    (hm : m.wfFrom (a + 1) = true) : Memory.wfFrom lo (Memory.cell a v ++ m) = true := by
  unfold Memory.cell
  split_ifs with hv
  · exact Memory.wfFrom_mono (by omega) hm
  · exact (Memory.wfFrom_cons ..).mpr ⟨hlo, ha, hv, hm⟩

theorem Memory.wfFrom_write : ∀ {m : Memory} {lo a : Nat} {v : Byte}, m.wfFrom lo = true → lo ≤ a → a < 256 →
    (m.write a v).wfFrom lo = true
  | [], lo, a, v, _, hlo, ha => by
    simpa [Memory.write] using Memory.wfFrom_cell_append (v := v) (m := []) hlo ha rfl
  | (k, b) :: m, lo, a, v, hm, hlo, ha => by
    have hm' := (Memory.wfFrom_cons ..).mp hm
    unfold Memory.write
    split_ifs with h1 h2
    · exact Memory.wfFrom_cell_append hlo ha ((Memory.wfFrom_cons ..).mpr ⟨h1, hm'.2⟩)
    · subst h2; exact Memory.wfFrom_cell_append hlo ha hm'.2.2.2
    · exact (Memory.wfFrom_cons ..).mpr ⟨hm'.1, hm'.2.1, hm'.2.2.1, Memory.wfFrom_write hm'.2.2.2 (by omega) ha⟩

/-- A write to a valid address keeps the canonical form. -/
theorem Memory.wf_write {m : Memory} {a : Nat} {v : Byte} (hm : m.wf = true) (ha : a < 256) :
    (m.write a v).wf = true :=
  Memory.wfFrom_write hm (Nat.zero_le a) ha

/-- Writing consecutive bytes inside the address space keeps the canonical form. -/
theorem Memory.wf_writeBytes : ∀ {bs : List Byte} {m : Memory} {a : Nat}, m.wf = true → a + bs.length ≤ 256 →
    (m.writeBytes a bs).wf = true
  | [], _, _, hm, _ => hm
  | b :: bs, m, a, hm, ha => by
    simp only [List.length_cons] at ha
    exact Memory.wf_writeBytes (bs := bs) (Memory.wf_write (a := a) hm (by omega)) (by omega)

/-- What a read sees after consecutive bytes are written. -/
theorem Memory.read_writeBytes : ∀ {bs : List Byte} {m : Memory} {a : Nat}, m.wf = true → a + bs.length ≤ 256 →
    ∀ c, (m.writeBytes a bs).read c = if a ≤ c then (bs[c - a]?).getD (Memory.read m c) else Memory.read m c
  | [], _, _, _, _, c => by simp [Memory.writeBytes]
  | b :: bs, m, a, hm, ha, c => by
    simp only [List.length_cons] at ha
    have ih := Memory.read_writeBytes (bs := bs) (a := a + 1) (Memory.wf_write (a := a) (v := b) hm (by omega)) (by omega) c
    rw [Memory.writeBytes, ih, Memory.read_write hm]
    rcases Nat.lt_trichotomy c a with h | h | h
    · simp [show ¬ a + 1 ≤ c by omega, show ¬ a ≤ c by omega, show c ≠ a by omega]
    · subst h; simp
    · obtain ⟨d, rfl⟩ : ∃ d, c = a + 1 + d := ⟨c - (a + 1), by omega⟩
      simp [show a ≤ a + 1 + d by omega, show a + 1 + d ≠ a by omega, show a + 1 + d - a = d + 1 by omega]

/-- Two memories in canonical form that read alike are equal. -/
theorem Memory.eq_of_read : ∀ {m n : Memory} {lo : Nat}, m.wfFrom lo = true → n.wfFrom lo = true →
    (∀ a, Memory.read m a = Memory.read n a) → m = n
  | [], [], _, _, _, _ => rfl
  | [], (k, b) :: n, _, _, hn, h => by
    have hn' := (Memory.wfFrom_cons ..).mp hn
    exact absurd (by simpa [Memory.read_cons] using (h k).symm) hn'.2.2.1
  | (k, b) :: m, [], _, hm, _, h => by
    have hm' := (Memory.wfFrom_cons ..).mp hm
    exact absurd (by simpa [Memory.read_cons] using h k) hm'.2.2.1
  | (k, b) :: m, (l, c) :: n, lo, hm, hn, h => by
    have hm' := (Memory.wfFrom_cons ..).mp hm
    have hn' := (Memory.wfFrom_cons ..).mp hn
    have hk := h k
    have hl := h l
    rcases Nat.lt_trichotomy k l with hkl | hkl | hkl
    · rw [Memory.read_cons, if_pos rfl, Memory.read_cons, if_neg (by omega),
        Memory.read_of_lt hn'.2.2.2 (by omega)] at hk
      exact absurd hk hm'.2.2.1
    · subst hkl
      rw [Memory.read_cons, if_pos rfl, Memory.read_cons, if_pos rfl] at hk
      subst hk
      have : m = n := Memory.eq_of_read hm'.2.2.2 hn'.2.2.2 fun a => by
        rcases Nat.lt_or_ge k a with ha | ha
        · simpa [Memory.read_cons, show k ≠ a by omega] using h a
        · rw [Memory.read_of_lt hm'.2.2.2 (by omega), Memory.read_of_lt hn'.2.2.2 (by omega)]
      rw [this]
    · rw [Memory.read_cons (k := l), if_pos rfl, Memory.read_cons, if_neg (by omega),
        Memory.read_of_lt hm'.2.2.2 (by omega)] at hl
      exact absurd hl.symm hn'.2.2.1

end Sys2Proof.Machine
end

