-- ==== Sys2Proof/Laws/State.lean ====
section
/-! SUPPORT. One lemma per field per update of State, and what a register reads after each update. -/

namespace Sys2Proof.Machine

variable (s : State)

@[simp] theorem State.setReg_xlen (r : Fin 8) (v : Nat) : (s.setReg r v).xlen = s.xlen := rfl
@[simp] theorem State.setReg_mem (r : Fin 8) (v : Nat) : (s.setReg r v).mem = s.mem := rfl
@[simp] theorem State.setReg_x (r : Fin 8) (v : Nat) : (s.setReg r v).x = s.x.set r v := rfl
@[simp] theorem State.setReg_pc (r : Fin 8) (v : Nat) : (s.setReg r v).pc = s.pc := rfl
@[simp] theorem State.setReg_status (r : Fin 8) (v : Nat) : (s.setReg r v).status = s.status := rfl
@[simp] theorem State.setReg_out (r : Fin 8) (v : Nat) : (s.setReg r v).out = s.out := rfl

@[simp] theorem State.setByte_xlen (a : Nat) (v : Byte) : (s.setByte a v).xlen = s.xlen := rfl
@[simp] theorem State.setByte_mem (a : Nat) (v : Byte) : (s.setByte a v).mem = s.mem.write a v := rfl
@[simp] theorem State.setByte_x (a : Nat) (v : Byte) : (s.setByte a v).x = s.x := rfl
@[simp] theorem State.setByte_pc (a : Nat) (v : Byte) : (s.setByte a v).pc = s.pc := rfl
@[simp] theorem State.setByte_status (a : Nat) (v : Byte) : (s.setByte a v).status = s.status := rfl
@[simp] theorem State.setByte_out (a : Nat) (v : Byte) : (s.setByte a v).out = s.out := rfl

@[simp] theorem State.advance_xlen (len : Nat) : (s.advance len).xlen = s.xlen := rfl
@[simp] theorem State.advance_mem (len : Nat) : (s.advance len).mem = s.mem := rfl
@[simp] theorem State.advance_x (len : Nat) : (s.advance len).x = s.x := rfl
@[simp] theorem State.advance_pc (len : Nat) : (s.advance len).pc = s.pc + len := rfl
@[simp] theorem State.advance_status (len : Nat) : (s.advance len).status = s.status := rfl
@[simp] theorem State.advance_out (len : Nat) : (s.advance len).out = s.out := rfl

@[simp] theorem State.emit_xlen (v : Nat) : (s.emit v).xlen = s.xlen := rfl
@[simp] theorem State.emit_mem (v : Nat) : (s.emit v).mem = s.mem := rfl
@[simp] theorem State.emit_x (v : Nat) : (s.emit v).x = s.x := rfl
@[simp] theorem State.emit_pc (v : Nat) : (s.emit v).pc = s.pc := rfl
@[simp] theorem State.emit_status (v : Nat) : (s.emit v).status = s.status := rfl
@[simp] theorem State.emit_out (v : Nat) : (s.emit v).out = s.out ++ [v] := rfl

@[simp] theorem State.halt_xlen : (s.halt).xlen = s.xlen := rfl
@[simp] theorem State.halt_mem : (s.halt).mem = s.mem := rfl
@[simp] theorem State.halt_x : (s.halt).x = s.x := rfl
@[simp] theorem State.halt_pc : (s.halt).pc = s.pc := rfl
@[simp] theorem State.halt_status : (s.halt).status = .halted := rfl
@[simp] theorem State.halt_out : (s.halt).out = s.out := rfl

@[simp] theorem State.reg_setByte (a : Nat) (v : Byte) (q : Fin 8) : (s.setByte a v).reg q = s.reg q := rfl
@[simp] theorem State.reg_advance (len : Nat) (q : Fin 8) : (s.advance len).reg q = s.reg q := rfl
@[simp] theorem State.reg_emit (v : Nat) (q : Fin 8) : (s.emit v).reg q = s.reg q := rfl
@[simp] theorem State.reg_halt (q : Fin 8) : (s.halt).reg q = s.reg q := rfl

/-- A register file reads back the last value written, and every other register is untouched (10_state.md R16, R20). -/
@[simp] theorem State.reg_setReg (r q : Fin 8) (v : Nat) : (s.setReg r v).reg q = if q = r then v else s.reg q := by
  simp only [State.reg, State.setReg, Fin.getElem_fin, Vector.getElem_set, Fin.ext_iff, eq_comm]

theorem State.reg_setReg_self (r : Fin 8) (v : Nat) : (s.setReg r v).reg r = v := by simp

theorem State.reg_setReg_of_ne {r q : Fin 8} (v : Nat) (h : q ≠ r) : (s.setReg r v).reg q = s.reg q := by simp [h]

/-- Two states with the same fields, register by register, are the same state. -/
theorem State.ext_reg {s t : State} (hw : t.xlen = s.xlen) (hm : t.mem = s.mem) (hr : ∀ r, t.reg r = s.reg r)
    (hp : t.pc = s.pc) (hs : t.status = s.status) (ho : t.out = s.out) : t = s := by
  have hx : t.x = s.x := Vector.ext fun i hi => hr ⟨i, hi⟩
  cases s; cases t; simp_all

/-- The registers of the machine after construction (10_state.md R18, R19). -/
theorem State.reg_resetAt (xlen : Nat) (r : Fin 8) : (State.resetAt xlen).reg r = if r = SP then 256 else 0 := by
  change (State.resetAt 0).reg r = _
  revert r; decide

end Sys2Proof.Machine
end

