-- ==== Sys2Proof/Laws/Ops.lean ====
section
/-! SUPPORT. What each shared operation can do, said once. -/

namespace Sys2Proof.Machine

/-! ### Narrowing -/

theorem wrap_lt (xlen : Nat) (v : Int) : wrap xlen v < 2 ^ xlen := (BitVec.ofInt xlen v).isLt

/-- `wrap` of a natural number is its remainder (00_scope.md R12). -/
theorem wrap_natCast (xlen n : Nat) : wrap xlen (n : Int) = n % 2 ^ xlen := by
  simp only [wrap, BitVec.toNat_ofInt]
  norm_cast

theorem wrap_add (xlen v w : Nat) : wrap xlen ((v : Int) + (w : Int)) = (v + w) % 2 ^ xlen := by
  rw [← wrap_natCast]; push_cast; rfl

theorem wrap_succ (xlen v : Nat) : wrap xlen ((v : Int) + 1) = (v + 1) % 2 ^ xlen := by
  rw [← wrap_natCast]; push_cast; rfl

theorem wrap_mul (xlen v w : Nat) : wrap xlen ((v : Int) * (w : Int)) = (v * w) % 2 ^ xlen := by
  rw [← wrap_natCast]; push_cast; rfl

/-- Decrementing a value that is not 0 and fits the register. -/
theorem wrap_pred_of_pos {xlen v : Nat} (h0 : 0 < v) (h : v < 2 ^ xlen) : wrap xlen ((v : Int) - 1) = v - 1 := by
  rw [show ((v : Int) - 1) = ((v - 1 : Nat) : Int) by omega, wrap_natCast, Nat.mod_eq_of_lt (by omega)]

/-- Decrementing 0 gives the largest register value (44_alu.md R94). -/
theorem wrap_neg_one (xlen : Nat) : wrap xlen (-1) = 2 ^ xlen - 1 := by
  have hp := Nat.two_pow_pos xlen
  simp only [wrap, BitVec.toNat_ofInt]
  have : (-1 : Int) % ((2 ^ xlen : Nat) : Int) = ((2 ^ xlen - 1 : Nat) : Int) := by
    rw [← Int.add_emod_right, Int.emod_eq_of_lt (by omega) (by omega)]
    omega
  rw [this]; rfl

/-! ### Memory access -/

/-- `memRead` answers the cell at a valid address (20_memory.md R37). -/
theorem State.memRead_of_le {s : State} {a : Nat} (h : a ≤ 255) : s.memRead a = some (s.mem.read a) := by
  simp [State.memRead, show a < 256 by omega]

/-- `memRead` is out of bounds from 256 on (20_memory.md R36, R37). -/
theorem State.memRead_of_gt {s : State} {a : Nat} (h : 255 < a) : s.memRead a = none := by
  simp [State.memRead, show ¬ a < 256 by omega]

theorem State.memRead_eq_some {s : State} {a : Nat} {v : Byte} :
    s.memRead a = some v ↔ a ≤ 255 ∧ s.mem.read a = v := by
  by_cases h : a ≤ 255
  · simp [State.memRead_of_le h, h]
  · simp [State.memRead_of_gt (Nat.lt_of_not_le h), h]

theorem State.memRead_eq_none {s : State} {a : Nat} : s.memRead a = none ↔ 255 < a := by
  by_cases h : a ≤ 255
  · simp [State.memRead_of_le h, h]
  · simp [State.memRead_of_gt (Nat.lt_of_not_le h), Nat.lt_of_not_le h]

/-- A read depends on the memory alone. -/
theorem State.memRead_congr {s t : State} (h : t.mem = s.mem) (a : Nat) : t.memRead a = s.memRead a := by
  simp only [State.memRead, h]

@[simp] theorem State.memRead_setReg (s : State) (r : Fin 8) (v : Nat) (a : Nat) :
    (s.setReg r v).memRead a = s.memRead a := rfl
@[simp] theorem State.memRead_advance (s : State) (n a : Nat) : (s.advance n).memRead a = s.memRead a := rfl
@[simp] theorem State.memRead_emit (s : State) (v : Nat) (a : Nat) : (s.emit v).memRead a = s.memRead a := rfl
@[simp] theorem State.memRead_halt (s : State) (a : Nat) : s.halt.memRead a = s.memRead a := rfl

/-- A read after a store of one byte: the byte there, and the old contents everywhere else (20_memory.md R38, R45). -/
theorem State.memRead_setByte {s : State} (hm : s.mem.wf = true) {a : Nat} (ha : a ≤ 255) (v : Byte) (c : Nat) :
    (s.setByte a v).memRead c = if c = a then some v else s.memRead c := by
  rcases Nat.lt_or_ge 255 c with hc | hc
  · rw [State.memRead_of_gt hc, State.memRead_of_gt hc, if_neg (by omega)]
  · rw [State.memRead_of_le hc, State.memRead_of_le hc, State.setByte_mem, Memory.read_write hm, apply_ite some]

/-! ### Operands -/

/-- A byte of at most 7 names the register of that index (30_encoding.md R55). -/
theorem regIndex_eq_some {b : Byte} {r : Fin 8} : regIndex b = some r ↔ b.toNat = r.val := by
  unfold regIndex
  split_ifs with h
  · simp [Fin.ext_iff]
  · simp only [false_iff]; omega

/-- A byte above 7 names no register (30_encoding.md R55). -/
theorem regIndex_eq_none {b : Byte} : regIndex b = none ↔ 7 < b.toNat := by
  unfold regIndex
  split_ifs with h
  · simp only [false_iff]; omega
  · simp only [true_iff]; omega

/-- The address a PUSH stores to, when SP is not 0: one below it (45_stack.md R97). -/
theorem pushAddress_of_pos {s : State} (h0 : 0 < s.reg SP) (h : s.reg SP < 2 ^ s.xlen) :
    pushAddress s = s.reg SP - 1 := wrap_pred_of_pos h0 h

/-- From SP = 0 the decrement gives the largest register value (44_alu.md R94). -/
theorem pushAddress_of_zero {s : State} (h : s.reg SP = 0) : pushAddress s = 2 ^ s.xlen - 1 := by
  rw [pushAddress, h]; exact wrap_neg_one _

theorem zext_lt {xlen : Nat} (h : 8 ≤ xlen) (b : Byte) : zext b < 2 ^ xlen :=
  lt_of_lt_of_le b.isLt (Nat.pow_le_pow_right (by decide) h)

/-! ### Faults -/

/-- Taking a fault answers a next state that differs in its status alone (40_execution_engine.md R74). -/
theorem raise_eq (s : State) (opcode : Option Byte) (kind : FaultKind) (info : Nat) :
    raise s opcode kind info =
      .next { s with status := .faulted { kind := kind, pc := s.pc, opcode := opcode, info := info } } := rfl

end Sys2Proof.Machine
end

