-- ==== Sys2Proof/Laws/Exec.lean ====
section
/-! SUPPORT. What each instruction can do, said once: `exec` always answers a next state, and `Effect` lists which. -/

namespace Sys2Proof.Machine

/-- What an instruction can make of a state: it takes a fault, or it has its own effect. -/
inductive Effect (s : State) : Instr → State → Prop where
  | fault (i : Instr) (kind : FaultKind) (info : Nat)
      (hk : kind = .registerOutOfBounds ∨ kind = .outOfBounds ∨ kind = .valueTooWide) :
      Effect s i { s with status := .faulted { kind := kind, pc := s.pc, opcode := some i.opcode, info := info } }
  | ldi (a imm : Byte) (r : Fin 8) (ha : a.toNat = r.val) :
      Effect s (.ldi a imm) ((s.setReg r (zext imm)).advance 3)
  | prn (a : Byte) (r : Fin 8) (ha : a.toNat = r.val) : Effect s (.prn a) ((s.emit (s.reg r)).advance 2)
  | hlt : Effect s .hlt (s.halt.advance 1)
  | mul (a b : Byte) (d r : Fin 8) (ha : a.toNat = d.val) (hb : b.toNat = r.val) :
      Effect s (.mul a b) ((s.setReg d (aluMul s.xlen (s.reg d) (s.reg r))).advance 3)
  | push (a : Byte) (r : Fin 8) (v : Nat) (ha : a.toNat = r.val) (hv : v = (s.setReg SP (pushAddress s)).reg r)
      (haddr : pushAddress s ≤ 255) (hbyte : v ≤ 255) :
      Effect s (.push a)
        (((s.setReg SP (pushAddress s)).setByte (pushAddress s) (BitVec.ofNat 8 v)).advance 2)
  | pop (a : Byte) (r : Fin 8) (v : Byte) (ha : a.toNat = r.val) (hv : s.memRead (popAddress s) = some v) :
      Effect s (.pop a)
        (((s.setReg r (zext v)).setReg SP (wrap s.xlen (((s.setReg r (zext v)).reg SP : Int) + 1))).advance 2)

theorem execLdi_of_gt {a imm : Byte} {s : State} (h : 7 < a.toNat) :
    execLdi a imm s = raise s (some Opcode.ldi) .registerOutOfBounds a.toNat := by
  simp [execLdi, regIndex_eq_none.mpr h]

theorem execLdi_of_reg {a imm : Byte} {s : State} {r : Fin 8} (h : a.toNat = r.val) :
    execLdi a imm s = .next ((s.setReg r (zext imm)).advance 3) := by
  simp [execLdi, regIndex_eq_some.mpr h]

theorem execPrn_of_gt {a : Byte} {s : State} (h : 7 < a.toNat) :
    execPrn a s = raise s (some Opcode.prn) .registerOutOfBounds a.toNat := by
  simp [execPrn, regIndex_eq_none.mpr h]

theorem execPrn_of_reg {a : Byte} {s : State} {r : Fin 8} (h : a.toNat = r.val) :
    execPrn a s = .next ((s.emit (s.reg r)).advance 2) := by
  simp [execPrn, regIndex_eq_some.mpr h]

theorem execMul_of_gt_left {a b : Byte} {s : State} (h : 7 < a.toNat) :
    execMul a b s = raise s (some Opcode.mul) .registerOutOfBounds a.toNat := by
  simp [execMul, regIndex_eq_none.mpr h]

theorem execMul_of_gt_right {a b : Byte} {s : State} {d : Fin 8} (ha : a.toNat = d.val) (h : 7 < b.toNat) :
    execMul a b s = raise s (some Opcode.mul) .registerOutOfBounds b.toNat := by
  simp [execMul, regIndex_eq_some.mpr ha, regIndex_eq_none.mpr h]

theorem execMul_of_reg {a b : Byte} {s : State} {d r : Fin 8} (ha : a.toNat = d.val) (hb : b.toNat = r.val) :
    execMul a b s = .next ((s.setReg d (aluMul s.xlen (s.reg d) (s.reg r))).advance 3) := by
  simp [execMul, regIndex_eq_some.mpr ha, regIndex_eq_some.mpr hb, aluApply]

theorem execPush_of_gt {a : Byte} {s : State} (h : 7 < a.toNat) :
    execPush a s = raise s (some Opcode.push) .registerOutOfBounds a.toNat := by
  simp [execPush, regIndex_eq_none.mpr h]

/-- PUSH of a register, with the order of its two checks (45_stack.md R97, 60_exceptions.md R105). -/
theorem execPush_of_reg {a : Byte} {s : State} {r : Fin 8} (h : a.toNat = r.val) :
    execPush a s =
      if 255 < pushAddress s then raise s (some Opcode.push) .outOfBounds (pushAddress s)
      else if 255 < (s.setReg SP (pushAddress s)).reg r then
        raise s (some Opcode.push) .valueTooWide ((s.setReg SP (pushAddress s)).reg r)
      else .next (((s.setReg SP (pushAddress s)).setByte (pushAddress s)
        (BitVec.ofNat 8 ((s.setReg SP (pushAddress s)).reg r))).advance 2) := by
  simp only [execPush, regIndex_eq_some.mpr h, State.reg_setReg_self]

theorem execPop_of_gt {a : Byte} {s : State} (h : 7 < a.toNat) :
    execPop a s = raise s (some Opcode.pop) .registerOutOfBounds a.toNat := by
  simp [execPop, regIndex_eq_none.mpr h]

theorem execPop_of_none {a : Byte} {s : State} {r : Fin 8} (h : a.toNat = r.val)
    (hm : s.memRead (popAddress s) = none) :
    execPop a s = raise s (some Opcode.pop) .outOfBounds (popAddress s) := by
  simp only [execPop, regIndex_eq_some.mpr h, hm]

theorem execPop_of_some {a : Byte} {s : State} {r : Fin 8} {v : Byte} (h : a.toNat = r.val)
    (hm : s.memRead (popAddress s) = some v) :
    execPop a s = .next
      (((s.setReg r (zext v)).setReg SP (wrap s.xlen (((s.setReg r (zext v)).reg SP : Int) + 1))).advance 2) := by
  simp only [execPop, regIndex_eq_some.mpr h, hm, State.setReg_xlen]

/-- An operand byte names a register or is above 7. -/
theorem regIndex_cases (b : Byte) : (∃ r : Fin 8, b.toNat = r.val) ∨ 7 < b.toNat := by
  rcases Nat.lt_or_ge 7 b.toNat with h | h
  · exact .inr h
  · exact .inl ⟨⟨b.toNat, by omega⟩, rfl⟩

/-- Every instruction, in every state, answers a next state, and `Effect` says which. -/
theorem exec_effect (i : Instr) (s : State) : ∃ t, exec i s = .next t ∧ Effect s i t := by
  cases i with
  | ldi a imm =>
    obtain ⟨r, hr⟩ | h := regIndex_cases a
    · exact ⟨_, execLdi_of_reg hr, .ldi a imm r hr⟩
    · exact ⟨_, execLdi_of_gt h, .fault _ _ _ (.inl rfl)⟩
  | prn a =>
    obtain ⟨r, hr⟩ | h := regIndex_cases a
    · exact ⟨_, execPrn_of_reg hr, .prn a r hr⟩
    · exact ⟨_, execPrn_of_gt h, .fault _ _ _ (.inl rfl)⟩
  | hlt => exact ⟨_, rfl, .hlt⟩
  | mul a b =>
    obtain ⟨d, hd⟩ | h := regIndex_cases a
    · obtain ⟨r, hr⟩ | h := regIndex_cases b
      · exact ⟨_, execMul_of_reg hd hr, .mul a b d r hd hr⟩
      · exact ⟨_, execMul_of_gt_right hd h, .fault _ _ _ (.inl rfl)⟩
    · exact ⟨_, execMul_of_gt_left h, .fault _ _ _ (.inl rfl)⟩
  | push a =>
    obtain ⟨r, hr⟩ | h := regIndex_cases a
    · have he := execPush_of_reg (s := s) hr
      by_cases h1 : 255 < pushAddress s
      · rw [if_pos h1] at he
        exact ⟨_, he, .fault _ _ _ (.inr (.inl rfl))⟩
      · rw [if_neg h1] at he
        by_cases h2 : 255 < (s.setReg SP (pushAddress s)).reg r
        · rw [if_pos h2] at he
          exact ⟨_, he, .fault _ _ _ (.inr (.inr rfl))⟩
        · rw [if_neg h2] at he
          exact ⟨_, he, .push a r _ hr rfl (Nat.le_of_not_lt h1) (Nat.le_of_not_lt h2)⟩
    · exact ⟨_, execPush_of_gt h, .fault _ _ _ (.inl rfl)⟩
  | pop a =>
    obtain ⟨r, hr⟩ | h := regIndex_cases a
    · cases hm : s.memRead (popAddress s) with
      | none => exact ⟨_, execPop_of_none hr hm, .fault _ _ _ (.inr (.inl rfl))⟩
      | some v => exact ⟨_, execPop_of_some hr hm, .pop a r v hr hm⟩
    · exact ⟨_, execPop_of_gt h, .fault _ _ _ (.inl rfl)⟩

/-- The inversion of `exec`: if it answers `t`, then `t` is one of the listed effects. -/
theorem effect_of_exec {i : Instr} {s t : State} (h : exec i s = .next t) : Effect s i t := by
  obtain ⟨t', ht', he⟩ := exec_effect i s
  rw [ht'] at h
  cases h
  exact he

end Sys2Proof.Machine
end

