-- ==== Sys2Proof/Laws/PerInstr.lean ====
section
/-! SUPPORT. Statements made per instruction. -/

/-- The encoding of an instruction is its opcode byte and its operands, as many bytes as its length, and its register
operands are among them (30_encoding.md R51, R52, R54). -/
def Sys2Proof.Laws.EncodedShape.Statement (i : Sys2Proof.Instr) : Prop :=
  (Sys2Proof.encode i).length = i.length ∧ (Sys2Proof.encode i).head? = some i.opcode ∧
    ∀ b ∈ i.regOperands, b ∈ (Sys2Proof.encode i).tail

namespace Sys2Proof.Laws.EncodedShape

theorem ldi (a imm : Byte) : Statement (.ldi a imm) := ⟨rfl, rfl, by simp [Instr.regOperands, encode, Instr.operands]⟩
theorem prn (a : Byte) : Statement (.prn a) := ⟨rfl, rfl, by simp [Instr.regOperands, encode, Instr.operands]⟩
theorem hlt : Statement .hlt := ⟨rfl, rfl, by simp [Instr.regOperands]⟩
theorem mul (a b : Byte) : Statement (.mul a b) := ⟨rfl, rfl, by simp [Instr.regOperands, encode, Instr.operands]⟩
theorem push (a : Byte) : Statement (.push a) := ⟨rfl, rfl, by simp [Instr.regOperands, encode, Instr.operands]⟩
theorem pop (a : Byte) : Statement (.pop a) := ⟨rfl, rfl, by simp [Instr.regOperands, encode, Instr.operands]⟩

end Sys2Proof.Laws.EncodedShape
end

