-- ==== Sys2Proof/Laws/Step.lean ====
section
/-! SUPPORT. The fetch window, and what a step can do. -/

namespace Sys2Proof.Machine

/-! ### The bytes at pc -/

theorem State.codeBytes_of_le_253 {s : State} (h : s.pc ≤ 253) :
    s.codeBytes = [s.mem.read s.pc, s.mem.read (s.pc + 1), s.mem.read (s.pc + 2)] := by
  simp [State.codeBytes, State.memRead_of_le (s := s) (a := s.pc) (by omega),
    State.memRead_of_le (s := s) (a := s.pc + 1) (by omega), State.memRead_of_le (s := s) (a := s.pc + 2) (by omega)]

theorem State.codeBytes_of_eq_254 {s : State} (h : s.pc = 254) : s.codeBytes = [s.mem.read 254, s.mem.read 255] := by
  simp [State.codeBytes, h, State.memRead_of_le (s := s) (a := 254) (by omega),
    State.memRead_of_le (s := s) (a := 255) (by omega), State.memRead_of_gt (s := s) (a := 256) (by omega)]

theorem State.codeBytes_of_eq_255 {s : State} (h : s.pc = 255) : s.codeBytes = [s.mem.read 255] := by
  simp [State.codeBytes, h, State.memRead_of_le (s := s) (a := 255) (by omega),
    State.memRead_of_gt (s := s) (a := 256) (by omega), State.memRead_of_gt (s := s) (a := 257) (by omega)]

theorem State.codeBytes_of_gt {s : State} (h : 255 < s.pc) : s.codeBytes = [] := by
  simp [State.codeBytes, State.memRead_of_gt (s := s) (a := s.pc) (by omega),
    State.memRead_of_gt (s := s) (a := s.pc + 1) (by omega), State.memRead_of_gt (s := s) (a := s.pc + 2) (by omega)]

/-- The first byte of the window is the byte at pc (40_execution_engine.md R69). -/
theorem State.codeBytes_cons {s : State} (h : s.pc ≤ 255) : ∃ rest, s.codeBytes = s.mem.read s.pc :: rest := by
  obtain h | h | h : s.pc ≤ 253 ∨ s.pc = 254 ∨ s.pc = 255 := by omega
  · exact ⟨_, State.codeBytes_of_le_253 h⟩
  · exact ⟨_, by rw [State.codeBytes_of_eq_254 h, h]⟩
  · exact ⟨_, by rw [State.codeBytes_of_eq_255 h, h]⟩

/-- Every byte of the window is the byte at its address. -/
theorem State.memRead_of_codeBytes {s : State} {k : Nat} {b : Byte} (h : s.codeBytes[k]? = some b) :
    s.memRead (s.pc + k) = some b := by
  rw [State.memRead_eq_some]
  obtain hp | hp | hp | hp : s.pc ≤ 253 ∨ s.pc = 254 ∨ s.pc = 255 ∨ 255 < s.pc := by omega
  · rw [State.codeBytes_of_le_253 hp] at h
    match k with
    | 0 | 1 | 2 => simp at h; exact ⟨by omega, h⟩
    | k + 3 => simp at h
  · rw [State.codeBytes_of_eq_254 hp] at h
    match k with
    | 0 | 1 => simp at h; simp [hp, h]
    | k + 2 => simp at h
  · rw [State.codeBytes_of_eq_255 hp] at h
    match k with
    | 0 => simp at h; simp [hp, h]
    | k + 1 => simp at h
  · rw [State.codeBytes_of_gt hp] at h
    simp at h

/-! ### The step -/

theorem step_halted {s : State} (h : s.status = .halted) : step s = .fault .halted := by simp [step, h]

theorem step_faulted {s : State} {record : FaultRecord} (h : s.status = .faulted record) :
    step s = .fault .faulted := by simp [step, h]

theorem step_of_fetch_ok {s : State} (hs : s.status = .running) {i : Instr} {rest : List Byte}
    (hf : fetch s = .ok (i, rest)) : step s = exec i s := by simp [step, hs, hf]

theorem step_of_fetch_error {s : State} (hs : s.status = .running) {e : DecodeError} (hf : fetch s = .error e) :
    step s = raiseFetchFault s e := by simp [step, hs, hf]

/-- The inversion of `step`: it answers a next state only while Running, and then either the fetch faulted or the
fetched instruction ran. -/
theorem step_next {s t : State} (h : step s = .next t) :
    s.status = .running ∧
      ((∃ e, fetch s = .error e ∧ raiseFetchFault s e = .next t) ∨
        ∃ i rest, fetch s = .ok (i, rest) ∧ exec i s = .next t) := by
  cases hs : s.status with
  | halted => rw [step_halted hs] at h; cases h
  | faulted record => rw [step_faulted hs] at h; cases h
  | running =>
    refine ⟨rfl, ?_⟩
    cases hf : fetch s with
    | error e => rw [step_of_fetch_error hs hf] at h; exact .inl ⟨e, rfl, h⟩
    | ok p => obtain ⟨i, rest⟩ := p; rw [step_of_fetch_ok hs hf] at h; exact .inr ⟨i, rest, rfl, h⟩

/-- A Running core always has a next state (40_execution_engine.md R67, R75). -/
theorem step_running {s : State} (hs : s.status = .running) : ∃ t, step s = .next t := by
  cases hf : fetch s with
  | error e => rw [step_of_fetch_error hs hf]; cases e <;> exact ⟨_, rfl⟩
  | ok p => rw [step_of_fetch_ok hs hf]; obtain ⟨t, ht, -⟩ := exec_effect p.1 s; exact ⟨t, ht⟩

/-! ### Runs -/

/-- A core that is not Running stays as it is (40_execution_engine.md R68, R80). -/
theorem run_of_not_running {s : State} (h : s.status ≠ .running) (n : Nat) : run n s = s := by
  cases n with
  | zero => rfl
  | succ n =>
    unfold run
    split
    · rename_i t ht; exact absurd (step_next ht).1 h
    · rfl
    · rfl

/-- A run takes one step and goes on (40_execution_engine.md R80). -/
theorem run_succ_of_step {s t : State} (h : step s = .next t) (n : Nat) : run (n + 1) s = run n t := by rw [run, h]

end Sys2Proof.Machine
end

