-- ==== Sys2Proof/Tests/Slice0.lean ====
section
/-! SUPPORT. The model's own tests: ill-formed terms, decoding, one-step vectors of spec/95_test_vectors.md, and a witness for
the hypotheses of every statement. -/

namespace Sys2Proof.Tests.Slice0

open Sys2Proof Sys2Proof.Machine

/-- A Running core of width 16 with the given pc, memory and registers. -/
def demo (pc : Nat) (mem : Memory) (x : Vector Nat 8) : State :=
  { State.resetAt 16 with pc := pc, mem := mem, x := x }

/-- The registers at reset but for R0, R1 and SP. -/
def regs (r0 r1 sp : Nat) : Vector Nat 8 := #v[r0, r1, 0, 0, 0, 0, 0, sp]

/-- The next state of a result, if there is one. -/
def after : Result → Option State
  | .next t => some t
  | .fault _ => none
  | .refused _ => none

/-- The status, pc and output after a result: what a claim may read whatever happened. -/
def seen (r : Result) : Option (Status × Nat × List Nat) := (after r).map fun t => (t.status, t.pc, t.out)

/-- A register after a result. -/
def regAfter (r : Result) (q : Fin 8) : Option Nat := (after r).map fun t => t.reg q

/-- The status of a fault record. -/
def faultStatus (kind : FaultKind) (pc : Nat) (opcode : Option Byte) (info : Nat) : Status :=
  .faulted { kind := kind, pc := pc, opcode := opcode, info := info }

/-! ### Well-formedness refuses: 30_encoding.md R55 -/

theorem test_illformed_ldi : (Instr.ldi 8 1).wellFormed = false := by decide
theorem test_illformed_prn : (Instr.prn 8).wellFormed = false := by decide
theorem test_illformed_mul_left : (Instr.mul 9 0).wellFormed = false := by decide
theorem test_illformed_mul_right : (Instr.mul 0 8).wellFormed = false := by decide
theorem test_illformed_push : (Instr.push 0xFF).wellFormed = false := by decide
theorem test_illformed_pop : (Instr.pop 8).wellFormed = false := by decide
theorem test_wellformed_at_the_edge : (Instr.mul 7 7).wellFormed = true ∧ Instr.hlt.wellFormed = true := by decide

/-! ### Decoding: words written out from 30_encoding.md R58 -/

theorem test_decode_ldi : decode [0b10000010#8, 0b00000011#8, 0b11111111#8] = .ok (.ldi 3 255, []) := by rfl
theorem test_decode_prn : decode [0b01000111#8, 0b00000111#8, 0x00#8] = .ok (.prn 7, [0x00#8]) := by rfl
theorem test_decode_hlt : decode [0b00000001#8] = .ok (.hlt, []) := by rfl
theorem test_decode_mul : decode [0b10100010#8, 0b00000010#8, 0b00001000#8] = .ok (.mul 2 8, []) := by rfl
theorem test_decode_push : decode [0b01000101#8, 0b00000001#8] = .ok (.push 1, []) := by rfl
theorem test_decode_pop : decode [0b01000110#8, 0b00000110#8] = .ok (.pop 6, []) := by rfl
/-- ENG-4 to ENG-6: no field of the opcode byte decides, and ADD and SUB have no opcode (30_encoding.md R59, R62). -/
theorem test_decode_illegal : decode [0x81#8, 0, 0] = .error (.illegalOpcode 0x81) ∧
    decode [0xA0#8, 0, 1] = .error (.illegalOpcode 0xA0) ∧ decode [0xA1#8, 0, 1] = .error (.illegalOpcode 0xA1) :=
  ⟨rfl, rfl, rfl⟩
theorem test_decode_truncated : decode [0x82#8] = .error (.missingOperand 0x82 1) ∧
    decode [0x82#8, 9] = .error (.missingOperand 0x82 2) ∧ decode [0x46#8] = .error (.missingOperand 0x46 1) :=
  ⟨rfl, rfl, rfl⟩
/-- A table word: LDI R0, 8 is the bytes 82 00 08, the first byte lowest. -/
theorem test_table_word : decodeTableWord 24 0x080082 = some (.ldi 0 8) ∧ decodeTableWord 8 0x01 = some .hlt := by decide
/-- 30_encoding.md R65: the source's own program. -/
theorem test_assemble : assemble [.ldi 0 8, .prn 0, .hlt] = [0x82, 0, 8, 0x47, 0, 0x01] := by decide
/-- 30_encoding.md R63: the source's example as text, and `SP` and a comment. -/
theorem test_read_line :
    readLine ['L','D','I',' ','R','0',',','8',';',' ','P','R','N',' ','S','P',' ','#','x'] = some [.ldi 0 8, .prn 7] := by
  decide
theorem test_read_number : readImm ['0','x','F','f'] = some 255 ∧ readImm ['0','b','1','0'] = some 2 ∧
    readImm ['2','5','6'] = none ∧ readReg ['R','8'] = none := by decide

/-! ### One step each: 95_test_vectors.md -/

/-- LDI-3: the upper bits are cleared. -/
theorem test_ldi_clears_upper_bits :
    regAfter (step (demo 0 [(0, 0x82), (1, 1), (2, 0xFF)] (regs 0 0xFF00 256))) 1 = some 255 := by decide
/-- LDI-8: the operand read at 256 comes before the index check. -/
theorem test_ldi_at_254 : seen (step (demo 254 [(254, 0x82), (255, 9)] (regs 0 0 256))) =
    some (faultStatus .outOfBounds 254 (some 0x82) 256, 254, []) := by decide
/-- PRN-2. -/
theorem test_prn_sp : seen (step (demo 0 [(0, 0x47), (1, 7)] (regs 0 0 256))) = some (.running, 2, [256]) := by decide
/-- PRN-5. -/
theorem test_prn_index_8 : seen (step (demo 0 [(0, 0x47), (1, 8)] (regs 0 0 256))) =
    some (faultStatus .registerOutOfBounds 0 (some 0x47) 8, 0, []) := by decide
/-- HLT-2. -/
theorem test_hlt_at_255 : seen (step (demo 255 [(255, 0x01)] (regs 0 0 256))) = some (.halted, 256, []) := by decide
/-- HLT-3. -/
theorem test_halted_has_no_step : step { demo 0 [(0, 0x01)] (regs 0 0 256) with status := .halted } = .fault .halted := by
  rfl
/-- MUL-4, at XLEN = 16 and at XLEN = 32. -/
theorem test_mul_wraps : regAfter (exec (.mul 1 1) (demo 0 [] (regs 0 65025 256))) 1 = some 64513 ∧
    regAfter (exec (.mul 1 1) { demo 0 [] (regs 0 65025 256) with xlen := 32 }) 1 = some 4228250625 := by decide
/-- MUL-9: operand_a is checked first. -/
theorem test_mul_index_order : seen (step (demo 0 [(0, 0xA2), (1, 9), (2, 8)] (regs 0 0 256))) =
    some (faultStatus .registerOutOfBounds 0 (some 0xA2) 9, 0, []) := by decide
/-- PUSH-2: PUSH R7 stores the new SP. -/
theorem test_push_sp : (after (step (demo 0 [(0, 0x45), (1, 7)] (regs 0 0 256)))).map (fun t => (t.reg SP, t.memRead 255)) =
    some (255, some 255) := by decide
/-- PUSH-6: the address is checked before the value. -/
theorem test_push_address_first : seen (step (demo 0 [(0, 0x45)] (regs 300 0 0))) =
    some (faultStatus .outOfBounds 0 (some 0x45) 65535, 0, []) := by decide
/-- POP-3: POP R7 leaves the popped byte plus one. -/
theorem test_pop_sp : regAfter (step (demo 0 [(0, 0x46), (1, 7), (255, 42)] (regs 0 0 255))) SP = some 43 := by decide
/-- POP-4: it reads its own opcode byte. -/
theorem test_pop_own_opcode :
    (after (step (demo 0 [(0, 0x46), (1, 1)] (regs 0 0 0)))).map (fun t => (t.reg 1, t.reg SP)) = some (70, 1) := by decide
/-- ENG-1: the first step of an empty load. -/
theorem test_empty_memory : seen (step State.reset) = some (faultStatus .illegalOpcode 0 (some 0) 0, 0, []) := by decide
/-- ENG-3. -/
theorem test_fetch_at_256 : seen (step (demo 256 [] (regs 0 0 256))) =
    some (faultStatus .outOfBounds 256 none 256, 256, []) := by decide
/-- ALU-3. -/
theorem test_alu_add_wraps : ((aluApply .add 0 0 (demo 0 [] (regs 40000 0 256))).toOption.map fun t => t.reg 0) =
    some 14464 := by decide
/-- ALU-4. -/
theorem test_alu_sub_unsupported : aluApply .sub 0 1 (demo 0 [] (regs 2 3 256)) = .error .sub := rfl
/-- The word the host stores runs as the first instruction after reset: LDI R0, 8 (LDI-1). -/
theorem test_fetch_word : (after (step (State.reset.withFetchWord 24 0x080082))).map (fun t => (t.reg 0, t.pc)) =
    some (8, 3) := by decide
/-- Writing the reset contents removes the cell from the list. -/
theorem test_memory_canonical : Memory.write [(3, 1), (7, 2)] 3 0 = [(7, 2)] ∧
    Memory.write [(3, 1), (7, 2)] 5 9 = [(3, 1), (5, 9), (7, 2)] := by decide
/-- 60_exceptions.md R102, and R24: a fault leaves the running flag set. -/
theorem test_status_codes : (faultStatus .valueTooWide 0 none 0).faultCode = 5 ∧ Status.halted.faultCode = 0 ∧
    ({ State.reset with status := faultStatus .outOfBounds 0 none 0 } : State).runningFlag = true := by decide

/-! ### Witnesses: a state and operands that meet the hypotheses of each statement, clause by clause -/

/-- States in which each instruction and each stack edge is met. -/
def sp0 : State := demo 0 [(0, 0x45), (2, 0x47), (3, 1)] (regs 42 300 0)
def sp1 : State := demo 0 [(0, 0x45), (2, 0x47), (3, 1)] (regs 42 300 1)
def sp255 : State := demo 0 [(0, 0x46), (1, 1), (255, 42)] (regs 255 300 255)
def sp256 : State := demo 0 [(0, 0x45), (1, 1)] (regs 255 256 256)
def sp257 : State := demo 0 [(0, 0x45)] (regs 1 300 257)

/-- The invariant of a Running core of `demo` form, from facts that compute. -/
theorem demo_inv {pc : Nat} {mem : Memory} {x : Vector Nat 8} (hm : mem.wf = true)
    (hx : ∀ r : Fin 8, (demo pc mem x).reg r < 2 ^ 16) (hp : pc ≤ 256) : (demo pc mem x).Inv :=
  ⟨Nat.le_add_left 9 7, hm, hx, hp, (fun v hv => by cases hv), (fun record h => by cases h)⟩

theorem sp0_inv : sp0.Inv := demo_inv (by decide) (by decide) (by decide)
theorem sp1_inv : sp1.Inv := demo_inv (by decide) (by decide) (by decide)
theorem sp255_inv : sp255.Inv := demo_inv (by decide) (by decide) (by decide)
theorem sp256_inv : sp256.Inv := demo_inv (by decide) (by decide) (by decide)
theorem sp257_inv : sp257.Inv := demo_inv (by decide) (by decide) (by decide)

/-- The bytes of an instruction at pc, checked one by one. -/
theorem fetches_of_all {s : State} {i : Instr}
    (h : ((encode i).zipIdx.all fun p => decide (s.memRead (s.pc + p.2) = some p.1)) = true) : s.Fetches i := by
  intro k b hk
  have hmem : (b, k) ∈ (encode i).zipIdx := by
    rw [List.mk_mem_zipIdx_iff_getElem?]; exact hk
  simpa using List.all_eq_true.mp h (b, k) hmem

theorem witness_LoadWritesFromAddressZero : (List.replicate 256 (1 : Byte)).length ≤ 256 :=
  List.length_replicate.le
theorem witness_LoadTooLongFails : 256 < (List.replicate 257 (1 : Byte)).length :=
  (List.length_replicate (n := 257)).symm ▸ Nat.lt_succ_self 256
theorem witness_AssemblerReadsItsText : (Instr.ldi 7 255).WellFormed := by decide
theorem witness_AssemblerNamesOnlyRegisters : readInstr ['P', 'O', 'P', ' ', 'R', '7'] = some (.pop 7) := by decide
theorem witness_StepRunsFetchedInstruction : sp256.status = .running ∧ sp256.Fetches (.push 1) :=
  ⟨rfl, fetches_of_all (by decide)⟩
theorem witness_fetch_at_the_last_byte : (demo 255 [(255, 0x01)] (regs 0 0 256)).Fetches .hlt :=
  fetches_of_all (by decide)
theorem witness_OnlyRunningCoreSteps : ({ sp0 with status := .halted } : State).status = .halted ∧
    ({ sp0 with status := faultStatus .outOfBounds 0 none 0 } : State).status = faultStatus .outOfBounds 0 none 0 :=
  ⟨rfl, rfl⟩
theorem witness_IllegalOpcodeStops : (demo 255 [(255, 0xFF)] (regs 0 0 256)).status = .running ∧
    (demo 255 [(255, 0xFF)] (regs 0 0 256)).memRead 255 = some 0xFF#8 ∧
    0xFF#8 ∉ ([0x82#8, 0x47#8, 0x01#8, 0xA2#8, 0x45#8, 0x46#8] : List Byte) := by decide

/-- A completed step and a faulting step: PcAdvancesByLength, FaultIsAllOrNothing, FaultRecordIsPrecise,
NoStepRaisesUnsupportedOrLoadFailure, StepKeepsWidth, StepKeepsInvariant, OnlyHltClearsRunningFlag. -/
theorem witness_completed_step : ∃ t, step (demo 255 [(255, 0x01)] (regs 0 0 256)) = .next t ∧ ¬ t.isFaulted :=
  ⟨_, rfl, fun h => by obtain ⟨record, h⟩ := h; cases h⟩
theorem witness_faulting_step : ∃ t, step (demo 254 [(254, 0x82), (255, 9)] (regs 0 0 256)) = .next t ∧ t.isFaulted ∧
    t.status = faultStatus .outOfBounds 254 (some 0x82) 256 := ⟨_, rfl, ⟨_, rfl⟩, rfl⟩
theorem witness_StepKeepsInvariant : (demo 255 [(255, 0x01)] (regs 0 0 256)).Inv ∧
    ∃ t, step (demo 255 [(255, 0x01)] (regs 0 0 256)) = .next t :=
  ⟨demo_inv (by decide) (by decide) (by decide), ⟨_, rfl⟩⟩

theorem witness_FaultPriority_fetch : (demo 256 [] (regs 0 0 256)).status = .running ∧
    255 < (demo 256 [] (regs 0 0 256)).pc := by decide
theorem witness_FaultPriority_decode : (demo 255 [(255, 0x81)] (regs 0 0 256)).status = .running ∧
    (demo 255 [(255, 0x81)] (regs 0 0 256)).memRead 255 = some 0x81#8 ∧ ∀ i : Instr, i.opcode ≠ 0x81#8 :=
  ⟨rfl, by decide, fun i => by cases i <;> exact of_decide_eq_true rfl⟩
theorem witness_FaultPriority_operand : (demo 254 [(254, 0x82)] (regs 0 0 256)).status = .running ∧
    (demo 254 [(254, 0x82)] (regs 0 0 256)).memRead 254 = some (Instr.ldi 0 0).opcode ∧
    256 < (demo 254 [(254, 0x82)] (regs 0 0 256)).pc + (Instr.ldi 0 0).length := by decide
theorem witness_FaultPriority_index : (demo 0 [(0, 0xA2), (1, 7), (2, 8)] (regs 0 0 256)).status = .running ∧
    (demo 0 [(0, 0xA2), (1, 7), (2, 8)] (regs 0 0 256)).Fetches (.mul 7 8) ∧
    (Instr.mul 7 8).regOperands.find? (fun b => decide (7 < b.toNat)) = some 8 :=
  ⟨rfl, fetches_of_all (by decide), by decide⟩
theorem witness_FaultPriority_push_address : sp0.status = .running ∧ sp0.Fetches (.push 0) ∧
    (0#8).toNat = (0 : Fin 8).val ∧ 255 < pushAddress sp0 := ⟨rfl, fetches_of_all (by decide), by decide, by decide⟩
theorem witness_FaultPriority_push_value : sp256.status = .running ∧ sp256.Fetches (.push 1) ∧
    (1#8).toNat = (1 : Fin 8).val ∧ ¬ 255 < pushAddress sp256 ∧ (1 : Fin 8) ≠ SP ∧ 255 < sp256.reg 1 :=
  ⟨rfl, fetches_of_all (by decide), by decide, by decide, by decide, by decide⟩
theorem witness_FaultPriority_push_none : sp1.status = .running ∧ sp1.Fetches (.push 0) ∧
    (0#8).toNat = (0 : Fin 8).val ∧ ¬ 255 < pushAddress sp1 ∧ ¬ 255 < sp1.reg 0 :=
  ⟨rfl, fetches_of_all (by decide), by decide, by decide, by decide⟩
theorem witness_FaultPriority_pop_none : sp255.status = .running ∧ sp255.Fetches (.pop 1) ∧
    (1#8).toNat = (1 : Fin 8).val ∧ ¬ 255 < popAddress sp255 :=
  ⟨rfl, fetches_of_all (by decide), by decide, by decide⟩
theorem witness_FaultPriority_pop_address : (demo 0 [(0, 0x46)] (regs 0 0 256)).status = .running ∧
    (demo 0 [(0, 0x46)] (regs 0 0 256)).Fetches (.pop 0) ∧ (0#8).toNat = (0 : Fin 8).val ∧
    255 < popAddress (demo 0 [(0, 0x46)] (regs 0 0 256)) :=
  ⟨rfl, fetches_of_all (by decide), by decide, by decide⟩
theorem witness_FaultPriority_none : (demo 0 [(0, 0x82), (1, 7), (2, 255)] (regs 0 0 256)).status = .running ∧
    (demo 0 [(0, 0x82), (1, 7), (2, 255)] (regs 0 0 256)).Fetches (.ldi 7 255) ∧ (Instr.ldi 7 255).WellFormed ∧
    (∀ a, Instr.ldi 7 255 ≠ .push a) ∧ ∀ a, Instr.ldi 7 255 ≠ .pop a :=
  ⟨rfl, fetches_of_all (by decide), by decide, fun a h => (by cases h), fun a h => by cases h⟩
theorem witness_RegisterFaultExactlyWhenIllFormed :
    (∃ t, sp255.status = .running ∧ exec (.pop 8) sp255 = .next t ∧ ¬ (Instr.pop 8).WellFormed) ∧
      ∃ t, sp255.status = .running ∧ exec (.pop 7) sp255 = .next t ∧ (Instr.pop 7).WellFormed :=
  ⟨⟨_, rfl, rfl, by decide⟩, ⟨_, rfl, rfl, by decide⟩⟩

/-- The register clauses of LdiRule, PrnRule and MulRule at 0, 7 and 8. -/
theorem witness_register_operands : (0#8).toNat = (0 : Fin 8).val ∧ (7#8).toNat = SP.val ∧ 7 < (8#8).toNat ∧
    7 < (255#8).toNat := by decide
theorem witness_LdiRule_at_254 : (demo 254 [(254, 0x82)] (regs 0 0 256)).status = .running ∧
    (demo 254 [(254, 0x82)] (regs 0 0 256)).memRead 254 = some 0x82#8 := by decide
theorem witness_LdiRule_at_255 : (demo 255 [(255, 0x82)] (regs 0 0 256)).status = .running ∧
    (demo 255 [(255, 0x82)] (regs 0 0 256)).memRead 255 = some 0x82#8 := by decide
theorem witness_PrnRule_at_255 : (demo 255 [(255, 0x47)] (regs 0 0 256)).status = .running ∧
    (demo 255 [(255, 0x47)] (regs 0 0 256)).memRead 255 = some 0x47#8 := by decide
theorem witness_HltRule : (demo 255 [(255, 0x01)] (regs 0 0 256)).status = .running ∧
    (demo 255 [(255, 0x01)] (regs 0 0 256)).memRead 255 = some 0x01#8 := by decide
theorem witness_MulRule_at_254 : (demo 254 [(254, 0xA2)] (regs 0 0 256)).status = .running ∧
    (demo 254 [(254, 0xA2)] (regs 0 0 256)).memRead 254 = some 0xA2#8 := by decide
theorem witness_MulRule_at_255 : (demo 255 [(255, 0xA2)] (regs 0 0 256)).status = .running ∧
    (demo 255 [(255, 0xA2)] (regs 0 0 256)).memRead 255 = some 0xA2#8 := by decide
/-- PushRule's completing clause at SP = 1 with R0, and at SP = 256 with the widest byte and with R7. -/
theorem witness_PushRule_completes_at_1 : sp1.Inv ∧ (0#8).toNat = (0 : Fin 8).val ∧ 1 ≤ sp1.reg SP ∧
    sp1.reg SP ≤ 256 ∧ sp1.reg 0 ≤ 255 := ⟨sp1_inv, by decide⟩
theorem witness_PushRule_completes_at_256 : sp256.Inv ∧ 1 ≤ sp256.reg SP ∧ sp256.reg SP ≤ 256 ∧
    ((0#8).toNat = (0 : Fin 8).val ∧ sp256.reg 0 = 255) ∧ (7#8).toNat = SP.val ∧ pushAddress sp256 ≤ 255 :=
  ⟨sp256_inv, by decide⟩
theorem witness_PushRule_index : sp256.Inv ∧ 7 < (8#8).toNat := ⟨sp256_inv, by decide⟩
theorem witness_PushRule_address : (sp0.Inv ∧ (7#8).toNat ≤ 7 ∧ sp0.reg SP = 0) ∧
    sp257.Inv ∧ (0#8).toNat ≤ 7 ∧ 257 ≤ sp257.reg SP := ⟨⟨sp0_inv, by decide⟩, sp257_inv, by decide⟩
theorem witness_PushRule_value : sp256.Inv ∧ (1#8).toNat = (1 : Fin 8).val ∧ (1 : Fin 8) ≠ SP ∧ 1 ≤ sp256.reg SP ∧
    sp256.reg SP ≤ 256 ∧ 255 < sp256.reg 1 := ⟨sp256_inv, by decide⟩
theorem witness_PushRule_fault_keeps_SP : sp0.Inv ∧ ∃ t, sp0.status = .running ∧ exec (.push 0) sp0 = .next t ∧
    t.status = faultStatus .outOfBounds 0 (some 0x45) 65535 := ⟨sp0_inv, _, rfl, rfl, rfl⟩
theorem witness_PushRule_at_255 : (demo 255 [(255, 0x45)] (regs 0 0 256)).Inv ∧
    (demo 255 [(255, 0x45)] (regs 0 0 256)).status = .running ∧
    (demo 255 [(255, 0x45)] (regs 0 0 256)).memRead 255 = some 0x45#8 :=
  ⟨demo_inv (by decide) (by decide) (by decide), by decide⟩
theorem witness_PopRule_completes : (sp255.Inv ∧ (1#8).toNat = (1 : Fin 8).val ∧ sp255.reg SP ≤ 255) ∧
    sp0.Inv ∧ (7#8).toNat = SP.val ∧ sp0.reg SP ≤ 255 := ⟨⟨sp255_inv, by decide⟩, sp0_inv, by decide⟩
theorem witness_PopRule_index : sp255.Inv ∧ 7 < (8#8).toNat := ⟨sp255_inv, by decide⟩
theorem witness_PopRule_address : sp256.Inv ∧ (7#8).toNat ≤ 7 ∧ 255 < sp256.reg SP := ⟨sp256_inv, by decide⟩
theorem witness_PopRule_at_255 : (demo 255 [(255, 0x46)] (regs 0 0 256)).Inv ∧
    (demo 255 [(255, 0x46)] (regs 0 0 256)).status = .running ∧
    (demo 255 [(255, 0x46)] (regs 0 0 256)).memRead 255 = some 0x46#8 :=
  ⟨demo_inv (by decide) (by decide) (by decide), by decide⟩
/-- PushThenPop's clauses: a byte in R0 and R7 at SP = 1 and 256, popped into R1 and into R7; a wide R1; and SP = 0. -/
theorem witness_PushThenPop_completes : (sp1.Inv ∧ 1 ≤ sp1.reg SP ∧ sp1.reg SP ≤ 256 ∧ sp1.reg 0 ≤ 255) ∧
    sp256.Inv ∧ 1 ≤ sp256.reg SP ∧ sp256.reg SP ≤ 256 ∧ sp256.reg 0 ≤ 255 ∧ (0#8).toNat = (0 : Fin 8).val ∧
    (1#8).toNat = (1 : Fin 8).val ∧ (7#8).toNat = SP.val := ⟨⟨sp1_inv, by decide⟩, sp256_inv, by decide⟩
theorem witness_PushThenPop_faults : (sp256.Inv ∧ 1 ≤ sp256.reg SP ∧ sp256.reg SP ≤ 256 ∧ (1 : Fin 8) ≠ SP ∧
    255 < sp256.reg 1) ∧ sp0.Inv ∧ sp0.reg SP = 0 := ⟨⟨sp256_inv, by decide⟩, sp0_inv, by decide⟩
theorem witness_LdiThenPrnEmits :
    let s := demo 251 [(251, 0x82), (252, 7), (253, 255), (254, 0x47), (255, 7)] (regs 0 0 256)
    s.status = .running ∧ (7#8).toNat ≤ 7 ∧ s.Fetches (.ldi 7 255) ∧ s.memRead (s.pc + 3) = some 0x47#8 ∧ s.memRead (s.pc + 4) = some 7 :=
  ⟨rfl, by decide, fetches_of_all (by decide), by decide, by decide⟩
/-- PUSH at 0 writes MUL's opcode (R0 = 0xA2) at address 2, where HLT stood, in front of the operands 7 and 7. -/
theorem witness_PushedByteIsFetchedNext :
    let s := demo 0 [(0, 0x45), (2, 0x01), (3, 7), (4, 7)] (regs 0xA2 0 3)
    s.Inv ∧ s.status = .running ∧ s.Fetches (.push 0) ∧ (0 : Fin 8) ≠ SP ∧ pushAddress s = s.pc + 2 ∧ s.pc + 2 ≤ 255 ∧
      s.reg 0 = (Instr.mul 7 7).opcode.toNat ∧ s.memRead (s.pc + 3) = some 7 ∧ s.memRead (s.pc + 4) = some 7 :=
  ⟨demo_inv (by decide) (by decide) (by decide), rfl, fetches_of_all (by decide), by decide, by decide, by decide, by decide,
    by decide, by decide⟩
theorem witness_AluRejectsOtherTags : AluOp.sub ≠ .add ∧ AluOp.sub ≠ .mul ∧ AluOp.other 0 ≠ .add := by decide
theorem witness_OnlyPrnEmits : ∃ t, step (demo 0 [(0, 0x47), (1, 7)] (regs 0 0 256)) = .next t ∧
    t.out ≠ (demo 0 [(0, 0x47), (1, 7)] (regs 0 0 256)).out := ⟨_, rfl, by decide⟩
theorem witness_OnlyPushWritesMemory : ∃ t, sp1.Inv ∧ step sp1 = .next t ∧ t.memRead 0 ≠ sp1.memRead 0 :=
  ⟨_, sp1_inv, rfl, by decide⟩
theorem witness_OnlyNamedRegistersChange : ∃ t, step sp255 = .next t ∧ t.reg 1 ≠ sp255.reg 1 ∧
    t.reg SP ≠ sp255.reg SP := ⟨_, rfl, by decide, by decide⟩
theorem witness_EveryRunEnds : (demo 256 [] (regs 0 0 256)).pc ≤ 256 ∧ (run 0 sp0).status = .running := by decide
theorem witness_DecodesExactlyItsEncoding : decode [0x45#8, 0xFF#8, 0x00#8] = .ok (.push 255, [0x00#8]) := rfl

end Sys2Proof.Tests.Slice0
end

/-! The reset state and the invariant: 00_scope.md R9, 10_state.md R19 and R22. -/

namespace Sys2Proof.Machine

/-- At least 9 bits hold the largest reset value, SP's 256 (00_scope.md R9). -/
theorem State.reg_resetAt_lt {xlen : Nat} (h : 9 ≤ xlen) (r : Fin 8) : (State.resetAt xlen).reg r < 2 ^ xlen := by
  have hpow : 2 ^ 9 ≤ 2 ^ xlen := Nat.pow_le_pow_right (by decide) h
  rw [State.reg_resetAt]
  split_ifs
  · exact lt_of_lt_of_le (by decide : 256 < 2 ^ 9) hpow
  · exact Nat.two_pow_pos xlen

/-- The constructed machine meets the invariant at every legal width. -/
theorem State.inv_resetAt {xlen : Nat} (h : 9 ≤ xlen) : (State.resetAt xlen).Inv where
  xlen_ge := h
  mem_wf := rfl
  reg_lt := State.reg_resetAt_lt h
  pc_le := Nat.zero_le 256
  out_lt := fun _ hv => nomatch hv
  record_pc := fun _ hrecord => nomatch hrecord

/-- Settles O2: the one field that needs the bound on XLEN, beside the bound itself, is SP's 256
(`State.reg_resetAt_lt`), and the reference width 16 is one of the legal widths. -/
theorem resetMeetsInvariant : Obligations.ResetMeetsInvariant :=
  ⟨fun _ h => State.inv_resetAt h, rfl, State.inv_resetAt (by decide : 9 ≤ Config.referenceXlen)⟩

end Sys2Proof.Machine

/-! The decoder: what it accepts begins with an encoding (30_encoding.md R51 to R58). -/

namespace Sys2Proof

theorem decode_of_lookup_f0 {op : Byte} {i j : Instr} {bytes rest : List Byte} (hl : lookupOpcode op = some (.f0 j))
    (h : decode (op :: bytes) = .ok (i, rest)) : i = j ∧ bytes = rest := by
  simpa [decode, hl, eq_comm] using h

theorem decode_of_lookup_f1 {op : Byte} {mk : Byte → Instr} {i : Instr} {bytes rest : List Byte}
    (hl : lookupOpcode op = some (.f1 mk)) (h : decode (op :: bytes) = .ok (i, rest)) :
    ∃ a, i = mk a ∧ bytes = a :: rest := by
  match bytes with
  | [] => simp [decode, hl] at h
  | a :: bytes => simp_all [decode]

theorem decode_of_lookup_f2 {op : Byte} {mk : Byte → Byte → Instr} {i : Instr} {bytes rest : List Byte}
    (hl : lookupOpcode op = some (.f2 mk)) (h : decode (op :: bytes) = .ok (i, rest)) :
    ∃ a b, i = mk a b ∧ bytes = a :: b :: rest := by
  match bytes with
  | [] | [_] => simp [decode, hl] at h
  | a :: b :: bytes => simp_all [decode]

/-- Bytes that decode to an instruction begin with its encoding, and the rest is what was left over. -/
theorem eq_encode_append_of_decode {bytes rest : List Byte} {i : Instr} (h : decode bytes = .ok (i, rest)) :
    bytes = encode i ++ rest := by
  cases bytes with
  | nil => cases h
  | cons op bytes =>
    obtain ⟨rfl, hl⟩ | ⟨rfl, hl⟩ | ⟨rfl, hl⟩ | ⟨rfl, hl⟩ | ⟨rfl, hl⟩ | ⟨rfl, hl⟩ | ⟨-, hl⟩ := lookupOpcode_cases op
    · obtain ⟨a, b, rfl, rfl⟩ := decode_of_lookup_f2 hl h; rfl
    · obtain ⟨a, rfl, rfl⟩ := decode_of_lookup_f1 hl h; rfl
    · obtain ⟨rfl, rfl⟩ := decode_of_lookup_f0 hl h; rfl
    · obtain ⟨a, b, rfl, rfl⟩ := decode_of_lookup_f2 hl h; rfl
    · obtain ⟨a, rfl, rfl⟩ := decode_of_lookup_f1 hl h; rfl
    · obtain ⟨a, rfl, rfl⟩ := decode_of_lookup_f1 hl h; rfl
    · rw [decode_of_lookup_none hl] at h; cases h

theorem length_encode (i : Instr) : (encode i).length = i.length := by
  simp [encode, Instr.length, Nat.add_comm]

end Sys2Proof

/-! The fetch and the step: which bytes stand at pc when an instruction was fetched, and what a step can answer. -/

namespace Sys2Proof.Machine

/-- The bytes of a fetched instruction stand at pc (40_execution_engine.md R69 to R71). -/
theorem fetches_of_fetch {s : State} {i : Instr} {rest : List Byte} (h : fetch s = .ok (i, rest)) : s.Fetches i := by
  intro k b hk
  apply State.memRead_of_codeBytes
  rw [eq_encode_append_of_decode h]
  exact List.getElem?_append_left (List.getElem?_eq_some_iff.mp hk).1 ▸ hk

theorem State.Fetches.memRead_pc {s : State} {i : Instr} (h : s.Fetches i) : s.memRead s.pc = some i.opcode :=
  h 0 i.opcode rfl

/-- The last byte of a fetched instruction is at most at 255, so pc does not pass 256 (10_state.md R22). -/
theorem State.Fetches.pc_add_length_le {s : State} {i : Instr} (h : s.Fetches i) : s.pc + i.length ≤ 256 := by
  have hpos := i.length_bounds.1
  have hlast : i.length - 1 < (encode i).length := by rw [length_encode]; omega
  have haddr := (State.memRead_eq_some.mp (h _ _ (List.getElem?_eq_getElem hlast))).1
  omega

/-- A byte 0x01 at pc is a whole HLT, whatever follows it. -/
theorem fetch_of_memRead_hlt {s : State} (h : s.memRead s.pc = some Opcode.hlt) :
    ∃ rest, fetch s = .ok (.hlt, rest) := by
  obtain ⟨hpc, hop⟩ := State.memRead_eq_some.mp h
  obtain ⟨rest, hrest⟩ := State.codeBytes_cons hpc
  exact ⟨rest, by rw [fetch, hrest, hop]; rfl⟩

/-- A fault of the fetch changes the status alone, and its record names pc. -/
theorem raiseFetchFault_next {s t : State} {e : DecodeError} (h : raiseFetchFault s e = .next t) :
    ∃ record, record.pc = s.pc ∧ t = { s with status := .faulted record } := by
  cases e <;> cases h <;> exact ⟨_, rfl, rfl⟩

/-- The inversion of `step` down to effects: a Running core took a fault of the fetch, or a fetched instruction had one
of its effects. -/
theorem step_cases {s t : State} (h : step s = .next t) :
    s.status = .running ∧
      ((∃ record, record.pc = s.pc ∧ t = { s with status := .faulted record }) ∨ ∃ i, s.Fetches i ∧ Effect s i t) := by
  obtain ⟨hs, ⟨e, -, hraise⟩ | ⟨i, rest, hfetch, hexec⟩⟩ := step_next h
  · exact ⟨hs, .inl (raiseFetchFault_next hraise)⟩
  · exact ⟨hs, .inr ⟨i, fetches_of_fetch hfetch, effect_of_exec hexec⟩⟩

end Sys2Proof.Machine

/-! The invariant, operation by operation and then step by step (10_state.md R15, R22, R27; 20_memory.md R34). -/

namespace Sys2Proof.Machine

theorem State.Inv.setReg {s : State} (h : s.Inv) (r : Fin 8) {v : Nat} (hv : v < 2 ^ s.xlen) : (s.setReg r v).Inv where
  __ := h
  reg_lt q := by
    rw [State.reg_setReg]
    split_ifs
    · exact hv
    · exact h.reg_lt q

theorem State.Inv.setByte {s : State} (h : s.Inv) {a : Nat} (ha : a ≤ 255) (v : Byte) : (s.setByte a v).Inv where
  __ := h
  mem_wf := Memory.wf_write h.mem_wf (Nat.lt_succ_of_le ha)

theorem State.Inv.emit {s : State} (h : s.Inv) {v : Nat} (hv : v < 2 ^ s.xlen) : (s.emit v).Inv where
  __ := h
  out_lt w hw := by
    obtain hold | hnew := List.mem_append.mp hw
    · exact h.out_lt w hold
    · exact List.mem_singleton.mp hnew ▸ hv

theorem State.Inv.halt {s : State} (h : s.Inv) : s.halt.Inv where
  __ := h
  record_pc _ hrecord := nomatch hrecord

/-- Only a core without a fault record may advance: a record's pc is the pc of the stopped core. -/
theorem State.Inv.advance {s : State} (h : s.Inv) (hstatus : ∀ record, s.status ≠ .faulted record) {len : Nat}
    (hpc : s.pc + len ≤ 256) : (s.advance len).Inv where
  __ := h
  pc_le := hpc
  record_pc record hrecord := absurd hrecord (hstatus record)

theorem State.Inv.faulted {s : State} (h : s.Inv) {record : FaultRecord} (hpc : record.pc = s.pc) :
    State.Inv { s with status := .faulted record } where
  __ := h
  record_pc _ hrecord := by cases hrecord; exact hpc

/-- Every effect of an instruction that lies below 256 keeps the invariant. -/
theorem Effect.inv {s t : State} {i : Instr} (he : Effect s i t) (h : s.Inv) (hs : s.status = .running)
    (hpc : s.pc + i.length ≤ 256) : t.Inv := by
  have hrunning : ∀ record, s.status ≠ .faulted record := fun record => by simp [hs]
  have hzext : ∀ b : Byte, zext b < 2 ^ s.xlen := zext_lt (Nat.le_of_succ_le h.xlen_ge)
  cases he with
  | fault => exact h.faulted rfl
  | ldi a imm r => exact (h.setReg r (hzext imm)).advance hrunning hpc
  | prn a r => exact (h.emit (h.reg_lt r)).advance hrunning hpc
  | hlt => exact h.halt.advance (fun _ => nofun) hpc
  | mul a b d r => exact (h.setReg d (wrap_lt _ _)).advance hrunning hpc
  | push a r v ha hv haddr => exact ((h.setReg SP (wrap_lt _ _)).setByte haddr _).advance hrunning hpc
  | pop a r v => exact ((h.setReg r (hzext v)).setReg SP (wrap_lt _ _)).advance hrunning hpc

/-- Settles O30: a fault keeps the invariant since its record names pc, and a fetched instruction lies below 256, so that
its effect does (`Effect.inv`). -/
theorem stepKeepsInvariant : Obligations.StepKeepsInvariant := by
  intro s t h hstep
  obtain ⟨hs, ⟨record, hpc, rfl⟩ | ⟨i, hi, he⟩⟩ := step_cases hstep
  · exact h.faulted hpc
  · exact he.inv h hs hi.pc_add_length_le

end Sys2Proof.Machine

/-! What only some instructions change: XLEN, the running flag, the output and the registers (10_state.md R24 to R31). -/

namespace Sys2Proof.Machine

theorem Effect.xlen_eq {s t : State} {i : Instr} (he : Effect s i t) : t.xlen = s.xlen := by
  cases he <;> rfl

/-- Settles O31: no fault and no effect writes the width. -/
theorem stepKeepsWidth : Obligations.StepKeepsWidth := by
  intro s t hstep
  obtain ⟨-, ⟨record, -, rfl⟩ | ⟨i, -, he⟩⟩ := step_cases hstep
  · rfl
  · exact he.xlen_eq

theorem State.runningFlag_eq_false {s : State} : s.runningFlag = false ↔ s.status = .halted := by
  simp [State.runningFlag]

/-- No effect but that of HLT ends in the status Halted (10_state.md R25). -/
theorem Effect.eq_hlt_of_halted {s t : State} {i : Instr} (he : Effect s i t) (hs : s.status = .running)
    (ht : t.status = .halted) : i = .hlt := by
  cases he with
  | hlt => rfl
  | fault => cases ht
  | ldi | prn | mul | push | pop => exact nomatch hs.symm.trans ht

theorem step_halts_iff {s t : State} (hstep : step s = .next t) :
    t.status = .halted ↔ s.memRead s.pc = some Opcode.hlt := by
  obtain ⟨hs, hcases⟩ := step_cases hstep
  constructor
  · intro ht
    obtain ⟨record, -, rfl⟩ | ⟨i, hi, he⟩ := hcases
    · cases ht
    · obtain rfl := he.eq_hlt_of_halted hs ht
      exact hi.memRead_pc
  · intro hop
    obtain ⟨rest, hfetch⟩ := fetch_of_memRead_hlt hop
    rw [step_of_fetch_ok hs hfetch] at hstep
    cases hstep
    rfl

/-- Settles O32: the running flag is the status (`State.runningFlag_eq_false`), and the status becomes Halted exactly
where HLT's opcode stands at pc. -/
theorem onlyHltClearsRunningFlag : Obligations.OnlyHltClearsRunningFlag :=
  fun _ _ hstep => ⟨State.runningFlag_eq_false.trans (step_halts_iff hstep), step_halts_iff hstep⟩

/-- An effect that changes the output is that of PRN (42_prn.md R85). -/
theorem Effect.prn_of_out_ne {s t : State} {i : Instr} (he : Effect s i t) (hout : t.out ≠ s.out) :
    ∃ (a : Byte) (r : Fin 8), i = .prn a ∧ a.toNat = r.val ∧ t.out = s.out ++ [s.reg r] := by
  cases he with
  | prn a r ha => exact ⟨a, r, rfl, ha, rfl⟩
  | fault | ldi | hlt | mul | push | pop => exact absurd rfl hout

/-- Settles O33: a fault emits nothing, and PRN's effect is the only one that does. -/
theorem onlyPrnEmits : Obligations.OnlyPrnEmits := by
  intro s t hstep hout
  obtain ⟨-, ⟨record, -, rfl⟩ | ⟨i, hi, he⟩⟩ := step_cases hstep
  · exact absurd rfl hout
  · obtain ⟨a, r, rfl, ha, hemit⟩ := he.prn_of_out_ne hout
    exact ⟨a, r, hi, ha, hemit⟩

/-- A register written by `setReg` is the only one that can differ. -/
theorem State.eq_of_reg_setReg_ne {s : State} {r q : Fin 8} {v : Nat} (h : (s.setReg r v).reg q ≠ s.reg q) : q = r :=
  by_contra fun hq => h (State.reg_setReg_of_ne s v hq)

/-- An effect that changes a register is that of an instruction whose destination it is, or it is SP and the
instruction is PUSH or POP (10_state.md R31). -/
theorem Effect.writes_of_reg_ne {s t : State} {i : Instr} {q : Fin 8} (he : Effect s i t) (hq : t.reg q ≠ s.reg q) :
    (∃ a imm : Byte, i = .ldi a imm ∧ a.toNat = q.val) ∨ (∃ a b : Byte, i = .mul a b ∧ a.toNat = q.val) ∨
      (∃ a : Byte, i = .push a ∧ q = SP) ∨ ∃ a : Byte, i = .pop a ∧ (a.toNat = q.val ∨ q = SP) := by
  cases he with
  | fault | prn | hlt => exact absurd rfl hq
  | ldi a imm r ha =>
    obtain rfl := State.eq_of_reg_setReg_ne hq
    exact .inl ⟨a, imm, rfl, ha⟩
  | mul a b d r ha =>
    obtain rfl := State.eq_of_reg_setReg_ne hq
    exact .inr (.inl ⟨a, b, rfl, ha⟩)
  | push a => exact .inr (.inr (.inl ⟨a, rfl, State.eq_of_reg_setReg_ne hq⟩))
  | pop a r v ha =>
    refine .inr (.inr (.inr ⟨a, rfl, or_iff_not_imp_right.mpr fun hsp => ?_⟩))
    rw [State.reg_advance, State.reg_setReg_of_ne _ _ hsp] at hq
    obtain rfl := State.eq_of_reg_setReg_ne hq
    exact ha

/-- Settles O35: a fault changes no register, and an effect changes only those it names (`Effect.writes_of_reg_ne`). -/
theorem onlyNamedRegistersChange : Obligations.OnlyNamedRegistersChange := by
  intro s t q hstep hq
  obtain ⟨-, ⟨record, -, rfl⟩ | ⟨i, hi, he⟩⟩ := step_cases hstep
  · exact absurd rfl hq
  · exact ⟨i, hi, he.writes_of_reg_ne hq⟩

end Sys2Proof.Machine

/-! The fetch from the bytes: where an encoding stands at pc, that instruction runs
(40_execution_engine.md R69 to R75). -/

namespace Sys2Proof

/-- An encoding decodes to its instruction, whatever follows it (30_encoding.md R57). -/
theorem decode_encode_append (i : Instr) (rest : List Byte) : decode (encode i ++ rest) = .ok (i, rest) := by
  cases i <;> rfl

end Sys2Proof

namespace Sys2Proof.Machine

/-- The window holds the three cells from pc upward, and nothing where an address is out of bounds. -/
theorem State.codeBytes_getElem? (s : State) {k : Nat} (hk : k < 3) : s.codeBytes[k]? = s.memRead (s.pc + k) := by
  obtain hp | hp | hp | hp : s.pc ≤ 253 ∨ s.pc = 254 ∨ s.pc = 255 ∨ 255 < s.pc := by omega
  · rw [State.codeBytes_of_le_253 hp, State.memRead_of_le (by omega)]
    match k with
    | 0 | 1 | 2 => rfl
  · rw [State.codeBytes_of_eq_254 hp, hp]
    match k with
    | 0 | 1 | 2 => rfl
  · rw [State.codeBytes_of_eq_255 hp, hp]
    match k with
    | 0 | 1 | 2 => rfl
  · rw [State.codeBytes_of_gt hp, State.memRead_of_gt (by omega)]
    rfl

/-- The window begins with the encoding that stands at pc, since no encoding is longer than the window. -/
theorem State.Fetches.encode_prefix {s : State} {i : Instr} (h : s.Fetches i) : encode i <+: s.codeBytes := by
  rw [List.prefix_iff_getElem?]
  intro k hk
  have hlen := i.length_bounds.2
  rw [length_encode] at hk
  rw [s.codeBytes_getElem? (by omega)]
  exact h k _ (List.getElem?_eq_getElem _)

/-- A Running core executes the instruction whose bytes stand at pc. -/
theorem State.Fetches.step_eq_exec {s : State} {i : Instr} (h : s.Fetches i) (hs : s.status = .running) :
    step s = exec i s := by
  obtain ⟨rest, hrest⟩ := h.encode_prefix
  exact step_of_fetch_ok hs (by rw [fetch, ← hrest, decode_encode_append])

/-- The bytes of an instruction stand at pc if its opcode does, and its operands behind it (30_encoding.md R52). -/
theorem fetches_of_opcode_of_operands {s : State} {i : Instr} (hop : s.memRead s.pc = some i.opcode)
    (hargs : ∀ (k : Nat) (b : Byte), i.operands[k]? = some b → s.memRead (s.pc + 1 + k) = some b) : s.Fetches i
  | 0, _, hb => hop.trans hb
  | k + 1, b, hb => by
    rw [Nat.add_comm k 1, ← Nat.add_assoc]
    exact hargs k b hb

end Sys2Proof.Machine

/-! Memory: what a completed PUSH stores, that nothing else writes, and that the next fetch reads it
(20_memory.md R46, R48). -/

namespace Sys2Proof.Machine

/-- A completed PUSH changes the cell at its decremented SP alone (45_stack.md R97). -/
theorem memRead_after_push {s : State} (hm : s.mem.wf = true) (haddr : pushAddress s ≤ 255) (v : Byte) (c : Nat) :
    (((s.setReg SP (pushAddress s)).setByte (pushAddress s) v).advance 2).memRead c =
      if c = pushAddress s then some v else s.memRead c :=
  State.memRead_setByte (s := s.setReg SP (pushAddress s)) hm haddr v c

/-- A PUSH of a register that is not SP completes when its address is valid and the register holds a byte
(45_stack.md R97). -/
theorem execPush_of_byte {a : Byte} {s : State} {r : Fin 8} (ha : a.toNat = r.val) (hr : r ≠ SP)
    (haddr : pushAddress s ≤ 255) (hbyte : s.reg r ≤ 255) :
    execPush a s = .next
      (((s.setReg SP (pushAddress s)).setByte (pushAddress s) (BitVec.ofNat 8 (s.reg r))).advance 2) := by
  rw [execPush_of_reg ha, State.reg_setReg_of_ne _ _ hr, if_neg (Nat.not_lt.mpr haddr), if_neg (Nat.not_lt.mpr hbyte)]

/-- An effect that changes what an address reads is that of a PUSH, and the address is the one it stores to. -/
theorem Effect.push_of_memRead_ne {s t : State} {i : Instr} {c : Nat} (he : Effect s i t) (hm : s.mem.wf = true)
    (hc : t.memRead c ≠ s.memRead c) : c = pushAddress s ∧ ∃ a, i = .push a := by
  cases he with
  | push a r v ha hv haddr =>
    rw [memRead_after_push hm haddr] at hc
    exact ⟨by_contra fun hne => hc (if_neg hne), a, rfl⟩
  | fault | ldi | prn | hlt | mul | pop => exact absurd rfl hc

/-- Settles O34: a fault stores nothing, and PUSH's effect is the only one that does (`Effect.push_of_memRead_ne`). -/
theorem onlyPushWritesMemory : Obligations.OnlyPushWritesMemory := by
  intro s t c h hstep hc
  obtain ⟨-, ⟨record, -, rfl⟩ | ⟨i, hi, he⟩⟩ := step_cases hstep
  · exact absurd rfl hc
  · obtain ⟨haddr, a, rfl⟩ := he.push_of_memRead_ne h.mem_wf hc
    exact ⟨haddr, a, hi⟩

/-- Settles O27: the PUSH completes, since its address and its value are bytes; the stored opcode then stands at the new
pc, and the operands behind it are cells the PUSH did not touch, so that the next step fetches the instruction. -/
theorem pushedByteIsFetchedNext : Obligations.PushedByteIsFetchedNext := by
  intro s a r i h hs hpush ha hr haddr hpc hreg hargs
  have haddr_le : pushAddress s ≤ 255 := haddr ▸ hpc
  have hbyte : s.reg r ≤ 255 := hreg ▸ Nat.le_of_lt_succ i.opcode.isLt
  have hexec := execPush_of_byte ha hr haddr_le hbyte
  rw [hreg, BitVec.ofNat_toNat, BitVec.setWidth_eq] at hexec
  refine ⟨_, (hpush.step_eq_exec hs).trans hexec, rfl, State.Fetches.step_eq_exec ?_ hs⟩
  apply fetches_of_opcode_of_operands
  · rw [memRead_after_push h.mem_wf haddr_le]
    exact if_pos haddr.symm
  · intro k b hb
    have hcell : s.pc + 2 + 1 + k ≠ pushAddress s := by omega
    rw [memRead_after_push h.mem_wf haddr_le]
    exact (if_neg hcell).trans (hargs k b hb)

end Sys2Proof.Machine

/-! The encoding is exact both ways, and with it the disassembly (30_encoding.md R51 to R60, R65, R66). -/

namespace Sys2Proof

/-- Settles O6: the decoder accepts nothing but an encoding (`eq_encode_append_of_decode`), and every encoding decodes
to its instruction, whatever follows (`decode_encode_append`). -/
theorem decodesExactlyItsEncoding : Obligations.DecodesExactlyItsEncoding := by
  intro bytes rest i
  constructor
  · exact eq_encode_append_of_decode
  · rintro rfl
    exact decode_encode_append i rest

/-- Settles O5: the six words are the encodings of the six instructions, so that the general round trip covers them. -/
theorem writtenOutWordsDecode : Obligations.WrittenOutWordsDecode :=
  ⟨decode_encode_append (.ldi 3 255) [], decode_encode_append (.prn 7) [], decode_encode_append .hlt [0x47#8],
    decode_encode_append (.mul 2 8) [], decode_encode_append (.push 1) [], decode_encode_append (.pop 6) []⟩

theorem assemble_cons (i : Instr) (prog : List Instr) : assemble (i :: prog) = encode i ++ assemble prog :=
  List.flatMap_cons

end Sys2Proof

namespace Sys2Proof.Machine

theorem disassemble_of_decode_ok {fuel : Nat} {bytes rest : List Byte} {i : Instr} (h : decode bytes = .ok (i, rest)) :
    disassemble (fuel + 1) bytes = (i :: (disassemble fuel rest).1, (disassemble fuel rest).2) := by
  rw [disassemble, h]

/-- Settles O7, by induction on the program: each turn of the walk takes one encoding off the bytes. -/
theorem disassemblyOfAssembly : Obligations.DisassemblyOfAssembly := by
  intro prog
  induction prog with
  | nil => rfl
  | cons i prog ih =>
    rw [assemble_cons, List.length_cons, disassemble_of_decode_ok (decode_encode_append i _), ih]

end Sys2Proof.Machine

/-! Register operands: what well-formedness says of them, and that it decides the register fault
(30_encoding.md R55, R61). -/

namespace Sys2Proof

theorem Instr.wellFormed_iff {i : Instr} : i.WellFormed ↔ ∀ b ∈ i.regOperands, namesRegister b = true :=
  List.all_eq_true

theorem Instr.WellFormed.exists_reg {i : Instr} (h : i.WellFormed) {b : Byte} (hb : b ∈ i.regOperands) :
    ∃ r : Fin 8, b.toNat = r.val :=
  ⟨⟨b.toNat, Nat.lt_succ_of_le (namesRegister_iff.mp (Instr.wellFormed_iff.mp h b hb))⟩, rfl⟩

theorem Instr.not_wellFormed_iff {i : Instr} : ¬ i.WellFormed ↔ ∃ b ∈ i.regOperands, 7 < b.toNat := by
  simp [Instr.wellFormed_iff, namesRegister_iff]

end Sys2Proof

namespace Sys2Proof.Machine

/-- An operand above 7 raises RegisterOutOfBounds in every state: the indices are checked before all else
(60_exceptions.md R105). -/
theorem exec_of_not_wellFormed {i : Instr} (h : ¬ i.WellFormed) (s : State) :
    ∃ info, exec i s = raise s (some i.opcode) .registerOutOfBounds info := by
  obtain ⟨b, hb, hgt⟩ := Instr.not_wellFormed_iff.mp h
  cases i with
  | hlt => cases hb
  | ldi a imm => obtain rfl := List.mem_singleton.mp hb; exact ⟨_, execLdi_of_gt hgt⟩
  | prn a => obtain rfl := List.mem_singleton.mp hb; exact ⟨_, execPrn_of_gt hgt⟩
  | push a => obtain rfl := List.mem_singleton.mp hb; exact ⟨_, execPush_of_gt hgt⟩
  | pop a => obtain rfl := List.mem_singleton.mp hb; exact ⟨_, execPop_of_gt hgt⟩
  | mul a c =>
    obtain ⟨d, hd⟩ | ha := regIndex_cases a
    · obtain rfl | rfl := List.mem_pair.mp hb
      · omega
      · exact ⟨_, execMul_of_gt_right hd hgt⟩
    · exact ⟨_, execMul_of_gt_left ha⟩

/-- With register operands of at most 7, an instruction completes or takes one of the stack's two faults. -/
theorem exec_of_wellFormed {i : Instr} (h : i.WellFormed) (s : State) :
    (∃ t, exec i s = .next t ∧ (t.status = s.status ∨ t.status = .halted)) ∨
      ∃ kind info, exec i s = raise s (some i.opcode) kind info ∧ (kind = .outOfBounds ∨ kind = .valueTooWide) := by
  cases i with
  | hlt => exact .inl ⟨_, rfl, .inr rfl⟩
  | ldi a imm =>
    obtain ⟨r, hr⟩ := h.exists_reg (b := a) List.mem_cons_self
    exact .inl ⟨_, execLdi_of_reg hr, .inl rfl⟩
  | prn a =>
    obtain ⟨r, hr⟩ := h.exists_reg (b := a) List.mem_cons_self
    exact .inl ⟨_, execPrn_of_reg hr, .inl rfl⟩
  | mul a b =>
    obtain ⟨d, hd⟩ := h.exists_reg (b := a) List.mem_cons_self
    obtain ⟨r, hr⟩ := h.exists_reg (b := b) (List.mem_pair.mpr (.inr rfl))
    exact .inl ⟨_, execMul_of_reg hd hr, .inl rfl⟩
  | push a =>
    obtain ⟨r, hr⟩ := h.exists_reg (b := a) List.mem_cons_self
    rw [exec, execPush_of_reg hr]
    split_ifs
    · exact .inr ⟨_, _, rfl, .inl rfl⟩
    · exact .inr ⟨_, _, rfl, .inr rfl⟩
    · exact .inl ⟨_, rfl, .inl rfl⟩
  | pop a =>
    obtain ⟨r, hr⟩ := h.exists_reg (b := a) List.mem_cons_self
    cases hm : s.memRead (popAddress s) with
    | none => exact .inr ⟨_, _, execPop_of_none hr hm, .inl rfl⟩
    | some v => exact .inl ⟨_, execPop_of_some hr hm, .inl rfl⟩

/-- The kind of a fault record is not RegisterOutOfBounds when a Running core ran a well-formed instruction. -/
theorem record_kind_ne_of_wellFormed {i : Instr} {s t : State} {record : FaultRecord} (hi : i.WellFormed)
    (hs : s.status = .running) (hexec : exec i s = .next t) (ht : t.status = .faulted record) :
    record.kind ≠ .registerOutOfBounds := by
  obtain ⟨t', ht', hstatus⟩ | ⟨kind, info, hraise, hkind⟩ := exec_of_wellFormed hi s
  · cases hexec.symm.trans ht'
    simp [ht, hs] at hstatus
  · cases hexec.symm.trans hraise
    cases ht
    obtain rfl | rfl := hkind <;> nofun

/-- Settles O18: an ill-formed instruction raises the fault before it does anything else (`exec_of_not_wellFormed`), and
a well-formed one raises none but the stack's faults (`record_kind_ne_of_wellFormed`). -/
theorem registerFaultExactlyWhenIllFormed : Obligations.RegisterFaultExactlyWhenIllFormed := by
  intro i s t hs hexec
  constructor
  · rintro ⟨record, ht, hkind⟩ hi
    exact record_kind_ne_of_wellFormed hi hs hexec ht hkind
  · intro hi
    obtain ⟨info, hraise⟩ := exec_of_not_wellFormed hi s
    cases hexec.symm.trans hraise
    exact ⟨_, rfl, rfl⟩

end Sys2Proof.Machine

/-! The assembler's operands: a register text and a number text read back as the byte they were written for
(30_encoding.md R63, R64). -/

namespace Sys2Proof.Machine

theorem digitValue_lt {base d : Nat} {c : Char} (h : digitValue base c = some d) : d < base := by
  simp only [digitValue, Option.ite_none_right_eq_some, Option.some.injEq] at h
  obtain ⟨hlt, rfl⟩ := h
  exact hlt

theorem digitValue_digitChar {base d : Nat} (hbase : base ≤ 10) (h : d < base) :
    digitValue base d.digitChar = some d := by
  have hcode : d.digitChar.toNat = 48 + d := (by decide : ∀ d < 10, d.digitChar.toNat = 48 + d) d (by omega)
  simp [digitValue, hcode, h, show 48 + d ≤ 57 by omega]

/-- The assembler reads a register operand as the index of a register (30_encoding.md R64). -/
theorem namesRegister_of_readReg {t : List Char} {b : Byte} (h : readReg t = some b) : namesRegister b = true := by
  unfold readReg at h
  split at h
  · cases h
    rfl
  · obtain ⟨d, hd, rfl⟩ := Option.map_eq_some_iff.mp h
    have hlt := digitValue_lt hd
    rw [namesRegister_iff, BitVec.toNat_ofNat]
    omega
  · cases h

theorem regText_of_namesRegister {b : Byte} (h : namesRegister b = true) : regText b = ['R', b.toNat.digitChar] := by
  have hle := namesRegister_iff.mp h
  rw [regText, if_pos h, Nat.toDigits_of_lt_base (by omega)]
  rfl

theorem readReg_regText {b : Byte} (h : namesRegister b = true) : readReg (regText b) = some b := by
  have hle := namesRegister_iff.mp h
  rw [regText_of_namesRegister h, readReg, digitValue_digitChar (by decide) (by omega)]
  simp

/-- Reading the decimal digits of a number, the accumulator becomes that number. -/
theorem readDigits_toDigits_append (n : Nat) (cs : List Char) :
    readDigits 10 (Nat.toDigits 10 n ++ cs) 0 = readDigits 10 cs n := by
  induction n using Nat.strongRecOn generalizing cs with
  | ind n ih =>
    obtain hn | hn := Nat.lt_or_ge n 10
    · simp [Nat.toDigits_of_lt_base hn, readDigits, digitValue_digitChar le_rfl hn]
    · have hdigit : digitValue 10 (n % 10).digitChar = some (n % 10) :=
        digitValue_digitChar le_rfl (Nat.mod_lt n (by decide))
      rw [Nat.toDigits_of_base_le (by decide) hn, List.append_assoc, ih (n / 10) (by omega)]
      simp [readDigits, hdigit, Nat.div_add_mod']

/-- A text of decimal digits is read in base 10: its second character is neither `x` nor `b`. -/
theorem readImm_of_isDigit {t : List Char} (hne : t ≠ []) (h : ∀ c ∈ t, c.isDigit = true) :
    readImm t = readDigits 10 t 0 := by
  unfold readImm
  split
  · exact absurd rfl hne
  · exact absurd (h 'x' (by simp)) (by decide)
  · exact absurd (h 'b' (by simp)) (by decide)
  · rfl

theorem isDigit_of_mem_immText {b : Byte} {c : Char} (h : c ∈ immText b) : c.isDigit = true :=
  Nat.isDigit_of_mem_toDigits (by decide) le_rfl h

theorem readImm_immText (b : Byte) : readImm (immText b) = some b := by
  rw [immText, readImm_of_isDigit Nat.toDigits_ne_nil fun _ => isDigit_of_mem_immText,
    ← List.append_nil (Nat.toDigits 10 b.toNat), readDigits_toDigits_append, readDigits,
    if_pos (Nat.le_of_lt_succ b.isLt), BitVec.ofNat_toNat, BitVec.setWidth_eq]

theorem wellFormed_of_map_readReg {t : List Char} {mk : Byte → Instr} {i : Instr}
    (hmk : ∀ a, (mk a).regOperands = [a]) (h : (readReg t).map mk = some i) : i.WellFormed := by
  obtain ⟨a, ha, rfl⟩ := Option.map_eq_some_iff.mp h
  simp [Instr.wellFormed_iff, hmk, namesRegister_of_readReg ha]

/-- Settles O9: of each instruction the assembler reads, the register operands come from `readReg`. -/
theorem assemblerNamesOnlyRegisters : Obligations.AssemblerNamesOnlyRegisters := by
  intro text i h
  unfold readInstr at h
  dsimp only at h
  split at h
  · obtain ⟨a, ha, h⟩ := Option.bind_eq_some_iff.mp h
    obtain ⟨imm, -, rfl⟩ := Option.map_eq_some_iff.mp h
    simp [Instr.wellFormed_iff, Instr.regOperands, namesRegister_of_readReg ha]
  · exact wellFormed_of_map_readReg (fun _ => rfl) h
  · cases h
    rfl
  · obtain ⟨a, ha, h⟩ := Option.bind_eq_some_iff.mp h
    obtain ⟨b, hb, rfl⟩ := Option.map_eq_some_iff.mp h
    simp [Instr.wellFormed_iff, Instr.regOperands, namesRegister_of_readReg ha, namesRegister_of_readReg hb]
  · exact wellFormed_of_map_readReg (fun _ => rfl) h
  · exact wellFormed_of_map_readReg (fun _ => rfl) h
  · cases h

end Sys2Proof.Machine

/-! The assembler's lines: the text of an instruction is cut into the mnemonic and the operands it was made of
(30_encoding.md R63). -/

namespace Sys2Proof.Machine

/-- A text that the assembler does not cut: it is not blank, and neither a space nor a comma stands in it. -/
structure IsToken (t : List Char) : Prop where
  ne_nil : t ≠ []
  no_space : ' ' ∉ t
  no_comma : ',' ∉ t

/-- The texts of an instruction's operands, in order. -/
def operandTexts : Instr → List (List Char)
  | .ldi a imm => [regText a, immText imm]
  | .prn a => [regText a]
  | .hlt => []
  | .mul a b => [regText a, regText b]
  | .push a => [regText a]
  | .pop a => [regText a]

/-- The mnemonic and the operands that `readInstr` cuts a text into, before it looks at either. -/
def textParts (t : List Char) : List Char × List (List Char) :=
  let t := trimSpaces t
  let args := dropSpaces (t.dropWhile (· ≠ ' '))
  (t.takeWhile (· ≠ ' '), if args = [] then [] else (splitAtChar ',' args).map dropSpaces)

/-- A text cut into the mnemonic and the operand texts of a well-formed instruction is read as that instruction. -/
theorem readInstr_of_textParts {t : List Char} {i : Instr} (hi : i.WellFormed)
    (h : textParts t = (mnemonicText i, operandTexts i)) : readInstr t = some i := by
  obtain ⟨hmnemonic, hoperands⟩ := Prod.mk.inj h
  have hreg := Instr.wellFormed_iff.mp hi
  unfold readInstr
  dsimp only
  rw [hmnemonic, hoperands]
  cases i with
  | hlt => rfl
  | ldi a imm => simp [mnemonicText, operandTexts, readReg_regText (hreg a List.mem_cons_self), readImm_immText]
  | prn a | push a | pop a => simp [mnemonicText, operandTexts, readReg_regText (hreg a List.mem_cons_self)]
  | mul a b =>
    simp [mnemonicText, operandTexts, readReg_regText (hreg a List.mem_cons_self),
      readReg_regText (hreg b (List.mem_pair.mpr (.inr rfl)))]

theorem dropSpaces_of_head? {t : List Char} (h : t.head? ≠ some ' ') : dropSpaces t = t := by
  cases t with
  | nil => rfl
  | cons c cs => exact if_neg fun hc => h (congrArg some hc)

theorem trimSpaces_of_ends {t : List Char} (hhead : t.head? ≠ some ' ') (hlast : t.getLast? ≠ some ' ') :
    trimSpaces t = t := by
  rw [trimSpaces, dropSpaces_of_head? hhead, dropSpaces_of_head? (by rwa [List.head?_reverse]), List.reverse_reverse]

theorem IsToken.head?_ne {t : List Char} (h : IsToken t) : t.head? ≠ some ' ' :=
  fun ht => h.no_space (List.mem_of_head? ht)

theorem IsToken.getLast?_ne {t : List Char} (h : IsToken t) : t.getLast? ≠ some ' ' :=
  fun ht => h.no_space (List.mem_of_getLast? ht)

theorem IsToken.head?_append_ne {t : List Char} (h : IsToken t) (u : List Char) : (t ++ u).head? ≠ some ' ' := by
  rw [List.head?_append_of_ne_nil _ h.ne_nil]
  exact h.head?_ne

theorem IsToken.getLast?_append_ne {t : List Char} (h : IsToken t) (u : List Char) : (u ++ t).getLast? ≠ some ' ' := by
  rw [List.getLast?_append_of_ne_nil _ h.ne_nil]
  exact h.getLast?_ne

/-- A text without the separator is one piece. -/
theorem splitAtChar_of_not_mem {sep : Char} {t : List Char} (h : sep ∉ t) : splitAtChar sep t = [t] := by
  induction t with
  | nil => rfl
  | cons c cs ih =>
    obtain ⟨hc, hcs⟩ := List.ne_and_not_mem_of_not_mem_cons h
    rw [splitAtChar, if_neg (Ne.symm hc), ih hcs]

theorem splitAtChar_append {sep : Char} {t : List Char} (h : sep ∉ t) (u : List Char) :
    splitAtChar sep (t ++ sep :: u) = t :: splitAtChar sep u := by
  induction t with
  | nil => exact if_pos rfl
  | cons c cs ih =>
    obtain ⟨hc, hcs⟩ := List.ne_and_not_mem_of_not_mem_cons h
    rw [List.cons_append, splitAtChar, if_neg (Ne.symm hc), ih hcs]

/-- The mnemonic ends at the first space, and what follows is cut at its commas. -/
theorem textParts_append {m args : List Char} (hm : IsToken m) (hne : args ≠ []) (hhead : args.head? ≠ some ' ')
    (hlast : args.getLast? ≠ some ' ') :
    textParts (m ++ ' ' :: args) = (m, (splitAtChar ',' args).map dropSpaces) := by
  have hword : ∀ c ∈ m, decide (c ≠ ' ') = true := fun c hc => by
    simpa using fun h : c = ' ' => hm.no_space (h ▸ hc)
  have htrim : trimSpaces (m ++ ' ' :: args) = m ++ ' ' :: args := by
    apply trimSpaces_of_ends (hm.head?_append_ne _)
    rwa [← List.singleton_append, ← List.append_assoc, List.getLast?_append_of_ne_nil _ hne]
  have hargs : dropSpaces (' ' :: args) = args := dropSpaces_of_head? hhead
  rw [textParts, htrim, List.takeWhile_append_of_pos hword, List.dropWhile_append_of_pos hword]
  simp [hargs, hne]

theorem textParts_one_operand {m p : List Char} (hm : IsToken m) (hp : IsToken p) :
    textParts (m ++ ' ' :: p) = (m, [p]) := by
  rw [textParts_append hm hp.ne_nil hp.head?_ne hp.getLast?_ne, splitAtChar_of_not_mem hp.no_comma, List.map_singleton,
    dropSpaces_of_head? hp.head?_ne]

theorem textParts_two_operands {m p q : List Char} (hm : IsToken m) (hp : IsToken p) (hq : IsToken q) :
    textParts (m ++ (' ' :: p ++ [',', ' '] ++ q)) = (m, [p, q]) := by
  have hspace : ',' ∉ ' ' :: q := List.not_mem_cons_of_ne_of_not_mem (by decide) hq.no_comma
  have hlast : (p ++ ',' :: ' ' :: q).getLast? ≠ some ' ' := by
    simpa using hq.getLast?_append_ne (p ++ [',', ' '])
  rw [List.append_assoc, List.cons_append]
  change textParts (m ++ ' ' :: (p ++ ',' :: ' ' :: q)) = _
  rw [textParts_append hm (by simp) (hp.head?_append_ne _) hlast, splitAtChar_append hp.no_comma,
    splitAtChar_of_not_mem hspace, List.map_cons, List.map_singleton, dropSpaces_of_head? hp.head?_ne]
  exact congrArg (m, [p, ·]) (dropSpaces_of_head? hq.head?_ne)

theorem isToken_mnemonicText (i : Instr) : IsToken (mnemonicText i) := by
  cases i <;> constructor <;> simp [mnemonicText]

theorem isToken_immText (b : Byte) : IsToken (immText b) where
  ne_nil := Nat.toDigits_ne_nil
  no_space h := absurd (isDigit_of_mem_immText h) (by decide)
  no_comma h := absurd (isDigit_of_mem_immText h) (by decide)

theorem isToken_regText {b : Byte} (h : namesRegister b = true) : IsToken (regText b) := by
  have htext : regText b = 'R' :: immText b := by rw [regText, if_pos h]; rfl
  have himm := isToken_immText b
  rw [htext]
  exact ⟨List.cons_ne_nil _ _, List.not_mem_cons_of_ne_of_not_mem (by decide) himm.no_space,
    List.not_mem_cons_of_ne_of_not_mem (by decide) himm.no_comma⟩

/-- The text of a well-formed instruction is cut into the parts it was made of. -/
theorem textParts_asmText {i : Instr} (hi : i.WellFormed) :
    textParts (asmText i) = (mnemonicText i, operandTexts i) := by
  have hm := isToken_mnemonicText i
  have hreg : ∀ b ∈ i.regOperands, IsToken (regText b) := fun b hb =>
    isToken_regText (Instr.wellFormed_iff.mp hi b hb)
  cases i with
  | hlt => rfl
  | prn a | push a | pop a => exact textParts_one_operand hm (hreg a List.mem_cons_self)
  | ldi a imm =>
    exact textParts_two_operands hm (hreg a List.mem_cons_self) (isToken_immText imm)
  | mul a b =>
    exact textParts_two_operands hm (hreg a List.mem_cons_self) (hreg b (List.mem_pair.mpr (.inr rfl)))

/-- Settles O8: the text is cut into the mnemonic and the operands it was made of (`textParts_asmText`), and each of
these is read back (`readInstr_of_textParts`). -/
theorem assemblerReadsItsText : Obligations.AssemblerReadsItsText :=
  fun _ hi => readInstr_of_textParts hi (textParts_asmText hi)

end Sys2Proof.Machine

/-! The step engine: a step faults in place or completes an instruction and moves pc forward, so every run ends
(40_execution_engine.md R68 to R80). -/

namespace Sys2Proof

/-- A byte that is the opcode of no instruction has no entry in the opcode map (30_encoding.md R60). -/
theorem lookupOpcode_eq_none {op : Byte} (h : ∀ i : Instr, i.opcode ≠ op) : lookupOpcode op = none := by
  obtain ⟨rfl, -⟩ | ⟨rfl, -⟩ | ⟨rfl, -⟩ | ⟨rfl, -⟩ | ⟨rfl, -⟩ | ⟨rfl, -⟩ | ⟨-, hl⟩ := lookupOpcode_cases op
  · exact absurd rfl (h (.ldi 0 0))
  · exact absurd rfl (h (.prn 0))
  · exact absurd rfl (h .hlt)
  · exact absurd rfl (h (.mul 0 0))
  · exact absurd rfl (h (.push 0))
  · exact absurd rfl (h (.pop 0))
  · exact hl

/-- The opcode map of 30_encoding.md R58, its six bytes written out. -/
theorem Instr.opcode_mem (i : Instr) : i.opcode ∈ ([0x82#8, 0x47#8, 0x01#8, 0xA2#8, 0x45#8, 0x46#8] : List Byte) := by
  cases i <;> simp only [Instr.opcode] <;> decide

end Sys2Proof

namespace Sys2Proof.Machine

/-- The first byte alone makes a fetch an IllegalOpcode: no operand byte is read (40_execution_engine.md R70). -/
theorem fetch_of_illegal_opcode {s : State} {op : Byte} (hop : s.memRead s.pc = some op)
    (h : ∀ i : Instr, i.opcode ≠ op) : fetch s = .error (.illegalOpcode op) := by
  obtain ⟨hpc, hread⟩ := State.memRead_eq_some.mp hop
  obtain ⟨rest, hrest⟩ := State.codeBytes_cons hpc
  rw [fetch, hrest, hread, decode_of_lookup_none (lookupOpcode_eq_none h)]

/-- Settles O12: every instruction's opcode is one of the six bytes (`Instr.opcode_mem`), so the fetch ends at this one
(`fetch_of_illegal_opcode`), and its fault changes the status alone. -/
theorem illegalOpcodeStops : Obligations.IllegalOpcodeStops := by
  intro s op hs hop hmem
  have hno : ∀ i : Instr, i.opcode ≠ op := fun i hi => hmem (hi ▸ i.opcode_mem)
  exact step_of_fetch_error hs (fetch_of_illegal_opcode hop hno)

theorem State.not_isFaulted_of_running {s : State} (h : s.status = .running) : ¬ s.isFaulted :=
  fun ⟨_, hrecord⟩ => nomatch h.symm.trans hrecord

/-- An effect on a Running core is a fault, which changes the status alone (40_execution_engine.md R74), or the
instruction completes and pc advances by its length (R72). -/
theorem Effect.faults_or_completes {s t : State} {i : Instr} (he : Effect s i t) (hs : s.status = .running) :
    (∃ record, t = { s with status := .faulted record }) ∨ (t.pc = s.pc + i.length ∧ ¬ t.isFaulted) := by
  cases he with
  | fault => exact .inl ⟨_, rfl⟩
  | hlt => exact .inr ⟨rfl, fun ⟨_, hrecord⟩ => nomatch hrecord⟩
  | ldi | prn | mul | push | pop => exact .inr ⟨rfl, State.not_isFaulted_of_running hs⟩

/-- A step changes the status alone, to Faulted, or it completes the fetched instruction. -/
theorem step_faults_or_completes {s t : State} (h : step s = .next t) :
    (∃ record, t = { s with status := .faulted record }) ∨
      ∃ i, s.Fetches i ∧ t.pc = s.pc + i.length ∧ ¬ t.isFaulted := by
  obtain ⟨hs, ⟨record, -, rfl⟩ | ⟨i, hi, he⟩⟩ := step_cases h
  · exact .inl ⟨record, rfl⟩
  · obtain hfault | hdone := he.faults_or_completes hs
    · exact .inl hfault
    · exact .inr ⟨i, hi, hdone⟩

/-- Settles O14: a step whose status is Faulted did not complete an instruction, and the other case of
`step_faults_or_completes` is the statement. -/
theorem faultIsAllOrNothing : Obligations.FaultIsAllOrNothing := by
  intro s t record hstep ht
  obtain ⟨record', rfl⟩ | ⟨i, -, -, hdone⟩ := step_faults_or_completes hstep
  · cases ht; rfl
  · exact absurd ⟨record, ht⟩ hdone

/-- Settles O13: the completing case of `step_faults_or_completes` names the instruction, and a fault keeps pc since it
keeps all but the status (`faultIsAllOrNothing`). -/
theorem pcAdvancesByLength : Obligations.PcAdvancesByLength := by
  refine ⟨?completes, ?faults, rfl, fun _ _ => ⟨rfl, rfl, rfl, rfl, rfl⟩⟩
  case completes =>
    intro s t hstep hdone
    obtain ⟨record, rfl⟩ | ⟨i, hi, hpc, -⟩ := step_faults_or_completes hstep
    · exact absurd ⟨record, rfl⟩ hdone
    · exact ⟨i, hi, hpc⟩
  case faults =>
    rintro s t hstep ⟨record, ht⟩
    rw [faultIsAllOrNothing s t record hstep ht]

/-- Settles O10: the fetch window begins with the instruction's encoding (`State.Fetches.step_eq_exec`). -/
theorem stepRunsFetchedInstruction : Obligations.StepRunsFetchedInstruction :=
  fun _ _ hs hi => hi.step_eq_exec hs

/-- Settles O11: a Running core has a next state (`step_running`), and the two stopped statuses have the host's faults. -/
theorem onlyRunningCoreSteps : Obligations.OnlyRunningCoreSteps :=
  fun _ => ⟨⟨fun ⟨_, hstep⟩ => (step_next hstep).1, step_running⟩, step_halted, fun _ => step_faulted⟩

/-! Runs: pc as the measure that bounds them (40_execution_engine.md R77, R78). -/

/-- A step after which the core still runs has moved pc on, and the instruction it completed lies below 256. -/
theorem pc_lt_of_step_running {s t : State} (hstep : step s = .next t) (ht : t.status = .running) :
    s.pc < t.pc ∧ t.pc ≤ 256 := by
  obtain ⟨record, rfl⟩ | ⟨i, hi, hpc, -⟩ := step_faults_or_completes hstep
  · cases ht
  · have hpos := i.length_bounds.1
    have hle := hi.pc_add_length_le
    omega

/-- A core that runs at the end of a run ran at its start, since a stopped core keeps its status (40_execution_engine.md R68). -/
theorem running_of_run_running {k : Nat} {s : State} (h : (run k s).status = .running) : s.status = .running :=
  by_contra fun hs => hs (run_of_not_running hs k ▸ h)

/-- While the core runs, pc is at least the number of steps further on, and in 0..256. -/
theorem pc_bounds_of_run_running {k : Nat} {s : State} (hpc : s.pc ≤ 256) (h : (run k s).status = .running) :
    s.pc + k ≤ (run k s).pc ∧ (run k s).pc ≤ 256 := by
  induction k generalizing s with
  | zero => exact ⟨le_rfl, hpc⟩
  | succ k ih =>
    obtain ⟨t, hstep⟩ := step_running (running_of_run_running h)
    rw [run_succ_of_step hstep] at h ⊢
    obtain ⟨hlt, hle⟩ := pc_lt_of_step_running hstep (running_of_run_running h)
    obtain ⟨hfar, hend⟩ := ih hle h
    exact ⟨by omega, hend⟩

/-- A run goes on from where a shorter one ended (40_execution_engine.md R80). -/
theorem run_add (m n : Nat) (s : State) : run (m + n) s = run n (run m s) := by
  induction m generalizing s with
  | zero => rw [Nat.zero_add, run]
  | succ m ih =>
    by_cases hs : s.status = .running
    · obtain ⟨t, hstep⟩ := step_running hs
      rw [Nat.succ_add, run_succ_of_step hstep, run_succ_of_step hstep, ih]
    · simp only [run_of_not_running hs]

/-- A run does not change again once it has stopped. -/
theorem run_eq_of_stopped {m n : Nat} {s : State} (h : (run m s).status ≠ .running) (hmn : m ≤ n) :
    run n s = run m s := by
  obtain ⟨d, rfl⟩ := Nat.exists_eq_add_of_le hmn
  rw [run_add, run_of_not_running h]

/-- Settles O36: pc grows with every step of a Running core and never passes 256 (`pc_bounds_of_run_running`), so that
257 steps leave none Running, and a stopped run stays as it is (`run_eq_of_stopped`). -/
theorem everyRunEnds : Obligations.EveryRunEnds := by
  intro s hpc
  have hrunning : ∀ k, (run k s).status = .running → k ≤ 256 ∧ s.pc + k ≤ (run k s).pc := by
    intro k hk
    obtain ⟨hfar, hend⟩ := pc_bounds_of_run_running hpc hk
    exact ⟨by omega, hfar⟩
  have hstopped : ∀ n, 257 ≤ n → (run n s).status ≠ .running := by
    intro n hn hrun
    have hle := (hrunning n hrun).1
    omega
  exact ⟨hrunning, fun n hn => ⟨hstopped n hn, run_eq_of_stopped (hstopped 257 le_rfl) hn⟩⟩

end Sys2Proof.Machine

/-! Operands past the last cell: an opcode whose instruction does not fit below 256 takes OutOfBounds 256, whatever its
operands (40_execution_engine.md R71, 60_exceptions.md R105). -/

namespace Sys2Proof

/-- Fewer bytes than the format has operands: the first one that is not there is reported. -/
theorem decode_of_missing_operand {i : Instr} {bytes : List Byte} (h : bytes.length + 1 < i.length) :
    decode (i.opcode :: bytes) = .error (.missingOperand i.opcode (bytes.length + 1)) := by
  match i, bytes with
  | .prn _, [] | .push _, [] | .pop _, [] => rfl
  | .ldi _ _, [] | .ldi _ _, [_] | .mul _ _, [] | .mul _ _, [_] => rfl
  | .hlt, _ | .prn _, _ :: _ | .push _, _ :: _ | .pop _, _ :: _ | .ldi _ _, _ :: _ :: _ | .mul _ _, _ :: _ :: _ =>
    exact absurd h (by simp [Instr.length, Instr.operands])

end Sys2Proof

namespace Sys2Proof.Machine

/-- At the top of memory, the window is cut short behind the last cell. -/
theorem State.codeBytes_at_top {s : State} (hge : 254 ≤ s.pc) (hle : s.pc ≤ 255) :
    ∃ rest, s.codeBytes = s.mem.read s.pc :: rest ∧ s.pc + (rest.length + 1) = 256 := by
  obtain hpc | hpc : s.pc = 254 ∨ s.pc = 255 := by omega
  · exact ⟨_, by rw [State.codeBytes_of_eq_254 hpc, hpc], by rw [hpc]; rfl⟩
  · exact ⟨_, by rw [State.codeBytes_of_eq_255 hpc, hpc], by rw [hpc]; rfl⟩

theorem takesFault_raise (s : State) (opcode : Option Byte) (kind : FaultKind) (info : Nat) :
    TakesFault (raise s opcode kind info) s opcode kind info :=
  ⟨_, raise_eq s opcode kind info, rfl, rfl⟩

/-- An instruction that reaches past the last cell faults before any operand is looked at, and the address is always
256, the first without a byte. -/
theorem step_takesFault_of_past_end {s : State} {i : Instr} (hs : s.status = .running)
    (hop : s.memRead s.pc = some i.opcode) (hend : 256 < s.pc + i.length) :
    TakesFault (step s) s (some i.opcode) .outOfBounds 256 := by
  have hlen := i.length_bounds.2
  obtain ⟨hpc, hread⟩ := State.memRead_eq_some.mp hop
  obtain ⟨rest, hrest, hmissing⟩ := State.codeBytes_at_top (by omega) hpc
  have hfetch : fetch s = .error (.missingOperand i.opcode (rest.length + 1)) := by
    rw [fetch, hrest, hread, decode_of_missing_operand (by omega)]
  rw [step_of_fetch_error hs hfetch, raiseFetchFault, hmissing]
  exact takesFault_raise ..

end Sys2Proof.Machine

/-! LDI, and the PRN behind it (41_ldi.md R83, R84). -/

namespace Sys2Proof.Machine

/-- An instruction that writes one register and advances leaves all else as it was (10_state.md R31). -/
theorem registerFrame_setReg_advance (s : State) (r : Fin 8) (v len : Nat) :
    RegisterFrame s ((s.setReg r v).advance len) [r] len where
  reg _ hq := State.reg_setReg_of_ne s v (List.ne_of_not_mem_cons hq)
  mem _ := rfl
  pc := rfl
  status := rfl
  out := rfl
  xlen := rfl

/-- Settles O19: the register clauses are the two results of `execLdi`, and at 254 and 255 the three bytes reach past
the last cell (`step_takesFault_of_past_end`). -/
theorem ldiRule : Obligations.LdiRule := by
  intro s a imm
  refine ⟨rfl, rfl, ?completes, ?index, ?pastEnd⟩
  case completes =>
    intro r hr
    exact ⟨_, execLdi_of_reg hr, State.reg_setReg_self s r _, registerFrame_setReg_advance s r _ 3⟩
  case index =>
    intro hgt
    rw [exec, execLdi_of_gt hgt]
    exact takesFault_raise ..
  case pastEnd =>
    intro hs hop hpc
    exact step_takesFault_of_past_end (i := .ldi a imm) hs hop (Nat.add_le_add_right hpc 3)

/-- Settles O26: LDI leaves memory as it was (`ldiRule`), so that the next step fetches the PRN behind it, and this
emits what the register now reads. -/
theorem ldiThenPrnEmits : Obligations.LdiThenPrnEmits := by
  intro s a imm hs ha hldi hop harg
  obtain ⟨r, hr⟩ := (regIndex_cases a).resolve_right (Nat.not_lt.mpr ha)
  obtain ⟨-, -, hcompletes, -, -⟩ := ldiRule s a imm
  obtain ⟨t, hexec, hreg, hframe⟩ := hcompletes r hr
  have ht : t.status = .running := hframe.status.trans hs
  have hprn : t.Fetches (.prn a) := by
    apply fetches_of_opcode_of_operands
    · rw [hframe.mem, hframe.pc]
      exact hop
    · intro k b hb
      obtain ⟨rfl, rfl⟩ : k = 0 ∧ a = b := by simpa [Instr.operands, List.getElem?_singleton] using hb
      rw [hframe.mem, hframe.pc]
      exact harg
  refine ⟨t, _, (hldi.step_eq_exec hs).trans hexec, (hprn.step_eq_exec ht).trans (execPrn_of_reg hr), ?out, ?pc, ht⟩
  case out => rw [State.advance_out, State.emit_out, hframe.out, hreg]
  case pc => rw [State.advance_pc, State.emit_pc, hframe.pc]

end Sys2Proof.Machine

/-! PRN (42_prn.md R85, R86). -/

namespace Sys2Proof.Machine

/-- Settles O20: the register clauses are the two results of `execPrn`, whose completed state differs from the old one
in output and pc alone, and at 255 the operand byte lies past the last cell (`step_takesFault_of_past_end`). -/
theorem prnRule : Obligations.PrnRule := by
  intro s a
  refine ⟨rfl, rfl, ?completes, ?index, ?pastEnd⟩
  case completes =>
    intro r hr
    exact ⟨_, execPrn_of_reg hr, State.emit_out .., fun _ => rfl, fun _ => rfl, rfl, rfl, rfl⟩
  case index =>
    intro hgt
    rw [exec, execPrn_of_gt hgt]
    exact takesFault_raise ..
  case pastEnd =>
    intro hs hop hpc
    exact step_takesFault_of_past_end (i := .prn a) hs hop (Nat.add_le_add_right hpc.ge 2)

end Sys2Proof.Machine

/-! HLT (43_hlt.md R87). -/

namespace Sys2Proof.Machine

/-- HLT completes from every state, with neither a fault nor a check. -/
theorem exec_hlt (s : State) : exec .hlt s = .next (s.halt.advance 1) := rfl

/-- Settles O21: the completed state differs from the old one in status and pc alone and, being Halted, has no step
(`step_halted`); at every address the opcode byte is all the fetch needs (`fetch_of_memRead_hlt`). -/
theorem hltRule : Obligations.HltRule := by
  refine ⟨rfl, rfl, ?completes, ?executed⟩
  case completes =>
    intro s
    have hstatus : (s.halt.advance 1).status = .halted := State.halt_status s
    exact ⟨_, exec_hlt s, hstatus, State.runningFlag_eq_false.mpr hstatus, State.advance_pc .., fun _ => rfl,
      fun _ => rfl, rfl, rfl, step_halted hstatus⟩
  case executed =>
    intro s hs hop
    obtain ⟨rest, hfetch⟩ := fetch_of_memRead_hlt hop
    exact step_of_fetch_ok hs hfetch

end Sys2Proof.Machine

/-! The ALU and MUL (44_alu.md R88 to R93). -/

namespace Sys2Proof.Machine

/-- Writing one register and nothing more is the frame of an ALU operation (44_alu.md R88). -/
theorem registerFrame_setReg (s : State) (d : Fin 8) (v : Nat) : RegisterFrame s (s.setReg d v) [d] 0 :=
  registerFrame_setReg_advance s d v 0

theorem aluApply_add (d r : Fin 8) (s : State) :
    aluApply .add d r s = .ok (s.setReg d ((s.reg d + s.reg r) % 2 ^ s.xlen)) := by
  rw [aluApply, aluAdd, wrap_add]

theorem aluApply_mul (d r : Fin 8) (s : State) :
    aluApply .mul d r s = .ok (s.setReg d ((s.reg d * s.reg r) % 2 ^ s.xlen)) := by
  rw [aluApply, aluMul, wrap_mul]

/-- Settles O28: each operation answers the old state with the remainder written to register `d`, which is read back
also where `d` is a source. -/
theorem aluAddAndMul : Obligations.AluAddAndMul := fun d r s =>
  ⟨⟨_, aluApply_add d r s, State.reg_setReg_self .., registerFrame_setReg ..⟩,
    ⟨_, aluApply_mul d r s, State.reg_setReg_self .., registerFrame_setReg ..⟩⟩

/-- Settles O29, by cases on the tag. -/
theorem aluRejectsOtherTags : Obligations.AluRejectsOtherTags := by
  intro op d r s hadd hmul
  cases op with
  | add => exact absurd rfl hadd
  | mul => exact absurd rfl hmul
  | sub | other tag => rfl

/-- Settles O22: the register clauses are the three results of `execMul`, whose product is narrowed by `wrap_mul`, and
at 254 and 255 the three bytes reach past the last cell (`step_takesFault_of_past_end`). -/
theorem mulRule : Obligations.MulRule := by
  intro s a b
  refine ⟨rfl, rfl, ?completes, ?indexLeft, ?indexRight, ?pastEnd⟩
  case completes =>
    intro d r hd hr
    exact ⟨_, execMul_of_reg hd hr, (State.reg_setReg_self s d _).trans (wrap_mul ..),
      registerFrame_setReg_advance s d _ 3⟩
  case indexLeft =>
    intro hgt
    rw [exec, execMul_of_gt_left hgt]
    exact takesFault_raise ..
  case indexRight =>
    intro hle hgt
    obtain ⟨d, hd⟩ := (regIndex_cases a).resolve_right (Nat.not_lt.mpr hle)
    rw [exec, execMul_of_gt_right hd hgt]
    exact takesFault_raise ..
  case pastEnd =>
    intro hs hop hpc
    exact step_takesFault_of_past_end (i := .mul a b) hs hop (Nat.add_le_add_right hpc 3)

end Sys2Proof.Machine

/-! The fault kinds a step can raise (44_alu.md R92, 60_exceptions.md R104, R111). -/

namespace Sys2Proof.Machine

/-- The fetch raises two kinds of fault (40_execution_engine.md R69 to R71). -/
theorem record_kind_of_raiseFetchFault {s t : State} {e : DecodeError} {record : FaultRecord}
    (h : raiseFetchFault s e = .next t) (ht : t.status = .faulted record) :
    record.kind = .outOfBounds ∨ record.kind = .illegalOpcode := by
  cases e with
  | noOpcode | missingOperand => cases h; cases ht; exact .inl rfl
  | illegalOpcode => cases h; cases ht; exact .inr rfl

/-- A Running core that an effect leaves Faulted took the effect `Effect.fault`, which has three kinds. -/
theorem Effect.record_kind {s t : State} {i : Instr} {record : FaultRecord} (he : Effect s i t)
    (hs : s.status = .running) (ht : t.status = .faulted record) :
    record.kind = .registerOutOfBounds ∨ record.kind = .outOfBounds ∨ record.kind = .valueTooWide := by
  cases he with
  | fault i kind info hk => cases ht; exact hk
  | hlt => cases ht
  | ldi | prn | mul | push | pop => exact nomatch hs.symm.trans ht

/-- The four kinds a step can raise (60_exceptions.md R104). -/
theorem record_kind_of_step {s t : State} {record : FaultRecord} (hstep : step s = .next t)
    (ht : t.status = .faulted record) :
    record.kind ∈ ([.outOfBounds, .illegalOpcode, .registerOutOfBounds, .valueTooWide] : List FaultKind) := by
  obtain ⟨hs, ⟨e, -, hraise⟩ | ⟨i, rest, -, hexec⟩⟩ := step_next hstep
  · obtain hk | hk := record_kind_of_raiseFetchFault hraise ht <;> simp [hk]
  · obtain hk | hk | hk := (effect_of_exec hexec).record_kind hs ht <;> simp [hk]

/-- Settles O17: neither kind is among the four of `record_kind_of_step`. -/
theorem noStepRaisesUnsupportedOrLoadFailure : Obligations.NoStepRaisesUnsupportedOrLoadFailure := by
  intro s t record hstep ht
  have hkind := record_kind_of_step hstep ht
  exact ⟨ne_of_mem_of_not_mem hkind (by decide), ne_of_mem_of_not_mem hkind (by decide)⟩

end Sys2Proof.Machine

/-! The stack: PUSH and POP (45_stack.md R97, R98). -/

namespace Sys2Proof.Machine

/-- The narrowest register holds every address and the 256 of an empty stack (00_scope.md R9). -/
theorem State.Inv.two_pow_ge {s : State} (h : s.Inv) : 512 ≤ 2 ^ s.xlen :=
  Nat.pow_le_pow_right (n := 2) (by decide) h.xlen_ge

/-- The address of a PUSH, the wrap at SP = 0 included. -/
theorem State.Inv.pushAddress_eq {s : State} (h : s.Inv) :
    pushAddress s = if s.reg SP = 0 then 2 ^ s.xlen - 1 else s.reg SP - 1 := by
  split_ifs with hsp
  · exact pushAddress_of_zero hsp
  · exact pushAddress_of_pos (Nat.pos_of_ne_zero hsp) (h.reg_lt SP)

/-- A PUSH finds a cell exactly when SP is in 1..256: the wrap at SP = 0 gives an address far past the last one. -/
theorem State.Inv.pushAddress_le_iff {s : State} (h : s.Inv) :
    pushAddress s ≤ 255 ↔ 1 ≤ s.reg SP ∧ s.reg SP ≤ 256 := by
  have hpow := h.two_pow_ge
  rw [h.pushAddress_eq]
  split_ifs <;> omega

/-- A PUSH of any register completes when its address is valid and the value is a byte; PUSH R7 pushes the new SP. -/
theorem execPush_of_le {a : Byte} {s : State} {r : Fin 8} {v : Nat} (ha : a.toNat = r.val)
    (hv : v = if r = SP then pushAddress s else s.reg r) (haddr : pushAddress s ≤ 255) (hbyte : v ≤ 255) :
    execPush a s = .next
      (((s.setReg SP (pushAddress s)).setByte (pushAddress s) (BitVec.ofNat 8 v)).advance 2) := by
  rw [execPush_of_reg ha, State.reg_setReg, ← hv, if_neg (Nat.not_lt.mpr haddr), if_neg (Nat.not_lt.mpr hbyte)]

/-- The address is checked before the value (60_exceptions.md R105). -/
theorem execPush_of_address_gt {a : Byte} {s : State} {r : Fin 8} (ha : a.toNat = r.val) (haddr : 255 < pushAddress s) :
    execPush a s = raise s (some Opcode.push) .outOfBounds (pushAddress s) := by
  rw [execPush_of_reg ha, if_pos haddr]

theorem execPush_of_value_gt {a : Byte} {s : State} {r : Fin 8} (ha : a.toNat = r.val) (hr : r ≠ SP)
    (haddr : pushAddress s ≤ 255) (hvalue : 255 < s.reg r) :
    execPush a s = raise s (some Opcode.push) .valueTooWide (s.reg r) := by
  rw [execPush_of_reg ha, State.reg_setReg_of_ne _ _ hr, if_neg (Nat.not_lt.mpr haddr), if_pos hvalue]

/-- Settles O23: SP in 1..256 is what makes the address valid (`State.Inv.pushAddress_le_iff`), so that the clauses on
the value and the address are the results of `execPush`; a fault changes the status alone
(`Effect.faults_or_completes`), and at 255 the operand byte lies past the last cell. -/
theorem pushRule : Obligations.PushRule := by
  intro s a h
  refine ⟨rfl, rfl, h.pushAddress_eq, ?completes, ?index, ?address, ?value, ?keepsSP, ?pastEnd⟩
  case completes =>
    intro r v hr hv hlo hhi hbyte
    have haddr := h.pushAddress_le_iff.mpr ⟨hlo, hhi⟩
    exact ⟨_, execPush_of_le hr hv haddr hbyte,
      (State.reg_setReg_self s SP _).trans (pushAddress_of_pos hlo (h.reg_lt SP)),
      fun _ hq => State.reg_setReg_of_ne s _ hq, memRead_after_push h.mem_wf haddr _, rfl, rfl, rfl, rfl⟩
  case index =>
    intro hgt
    rw [exec, execPush_of_gt hgt]
    exact takesFault_raise ..
  case address =>
    intro hle hsp
    obtain ⟨r, hr⟩ := (regIndex_cases a).resolve_right (Nat.not_lt.mpr hle)
    have haddr : ¬ pushAddress s ≤ 255 := by rw [h.pushAddress_le_iff]; omega
    rw [exec, execPush_of_address_gt hr (Nat.lt_of_not_le haddr)]
    exact takesFault_raise ..
  case value =>
    intro r hr hne hlo hhi hvalue
    rw [exec, execPush_of_value_gt hr hne (h.pushAddress_le_iff.mpr ⟨hlo, hhi⟩) hvalue]
    exact takesFault_raise ..
  case keepsSP =>
    intro t record hs hexec ht
    obtain ⟨record', rfl⟩ | ⟨-, hdone⟩ := (effect_of_exec hexec).faults_or_completes hs
    · rfl
    · exact absurd ⟨record, ht⟩ hdone
  case pastEnd =>
    intro hs hop hpc
    exact step_takesFault_of_past_end (i := .push a) hs hop (Nat.add_le_add_right hpc.ge 2)

/-- Incrementing an address or a popped byte does not wrap, at any width of the core. -/
theorem State.Inv.wrap_succ_of_le {s : State} (h : s.Inv) {v : Nat} (hv : v ≤ 255) :
    wrap s.xlen ((v : Int) + 1) = v + 1 := by
  have hpow := h.two_pow_ge
  rw [wrap_succ, Nat.mod_eq_of_lt (by omega)]

/-- An instruction that writes two registers and advances leaves all else as it was (10_state.md R31). -/
theorem registerFrame_setReg_setReg_advance (s : State) (r q : Fin 8) (v w len : Nat) :
    RegisterFrame s (((s.setReg r v).setReg q w).advance len) [r, q] len where
  reg p hp := by
    obtain ⟨hr, hq⟩ : p ≠ r ∧ p ≠ q := by simpa using hp
    exact (State.reg_setReg_of_ne (s.setReg r v) w hq).trans (State.reg_setReg_of_ne s v hr)
  mem _ := rfl
  pc := rfl
  status := rfl
  out := rfl
  xlen := rfl

/-- A POP with SP at a cell completes with the byte there, and increments SP as the destination's write left it. -/
theorem execPop_of_le {a : Byte} {s : State} {r : Fin 8} (h : s.Inv) (ha : a.toNat = r.val) (hsp : s.reg SP ≤ 255) :
    ∃ v, s.memRead (s.reg SP) = some v ∧ execPop a s = .next
      (((s.setReg r v.toNat).setReg SP ((if SP = r then v.toNat else s.reg SP) + 1)).advance 2) := by
  have hread : s.memRead (s.reg SP) = _ := State.memRead_of_le hsp
  refine ⟨_, hread, ?_⟩
  have hbyte := Nat.le_of_lt_succ (s.mem.read (s.reg SP)).isLt
  rw [execPop_of_some ha hread, zext, State.reg_setReg, h.wrap_succ_of_le (by split_ifs <;> assumption)]

/-- Settles O24: with SP at a cell POP completes without a wrap (`execPop_of_le`), above 255 there is no cell to read,
and at pc 255 the operand byte lies past the last cell. -/
theorem popRule : Obligations.PopRule := by
  intro s a h
  refine ⟨rfl, rfl, ?completes, ?index, ?address, ?pastEnd⟩
  case completes =>
    intro r hr hsp
    obtain ⟨v, hread, hexec⟩ := execPop_of_le h hr hsp
    refine ⟨v, _, hread, hexec, ?other, ?stackPointer, registerFrame_setReg_setReg_advance s r SP _ _ 2⟩
    case other =>
      intro hne
      simp [hne, hne.symm]
    case stackPointer =>
      intro heq
      simp [heq]
  case index =>
    intro hgt
    rw [exec, execPop_of_gt hgt]
    exact takesFault_raise ..
  case address =>
    intro hle hsp
    obtain ⟨r, hr⟩ := (regIndex_cases a).resolve_right (Nat.not_lt.mpr hle)
    rw [exec, execPop_of_none hr (State.memRead_of_gt hsp)]
    exact takesFault_raise ..
  case pastEnd =>
    intro hs hop hpc
    exact step_takesFault_of_past_end (i := .pop a) hs hop (Nat.add_le_add_right hpc.ge 2)

end Sys2Proof.Machine

/-! Exceptions: what the fault record says, and which of several failing checks is reported
(60_exceptions.md R103, R105, R107). -/

namespace Sys2Proof

/-- The opcode a failed decode had read; none where there was no byte to read it from (60_exceptions.md R103). -/
def DecodeError.opcode? : DecodeError → Option Byte
  | .noOpcode => none
  | .illegalOpcode op => some op
  | .missingOperand op _ => some op

/-- The opcode is the first byte in hand, whichever check of the decoder fails. -/
theorem opcode?_of_decode_error {bytes : List Byte} {e : DecodeError} (h : decode bytes = .error e) :
    e.opcode? = bytes.head? := by
  match bytes with
  | [] => cases h; rfl
  | op :: bytes =>
    match hl : lookupOpcode op, bytes with
    | none, _ => rw [decode_of_lookup_none hl] at h; cases h; rfl
    | some (.f1 _), [] | some (.f2 _), [] | some (.f2 _), [_] => simp only [decode, hl] at h; cases h; rfl
    | some (.f0 _), _ | some (.f1 _), _ :: _ | some (.f2 _), _ :: _ :: _ => simp [decode, hl] at h

end Sys2Proof

namespace Sys2Proof.Machine

theorem State.head?_codeBytes (s : State) : s.codeBytes.head? = s.memRead s.pc := by
  rw [List.head?_eq_getElem?, s.codeBytes_getElem? (by decide), Nat.add_zero]

theorem raiseFetchFault_eq_raise (s : State) (e : DecodeError) :
    ∃ kind info, raiseFetchFault s e = raise s e.opcode? kind info := by
  cases e <;> exact ⟨_, _, rfl⟩

/-- A fault of the fetch records the byte at pc, none where pc has none. -/
theorem step_of_fetch_error_eq_raise {s : State} (hs : s.status = .running) {e : DecodeError}
    (h : fetch s = .error e) : ∃ kind info, step s = raise s (s.memRead s.pc) kind info := by
  rw [step_of_fetch_error hs h, ← s.head?_codeBytes, ← opcode?_of_decode_error h]
  exact raiseFetchFault_eq_raise s e

/-- A Running core that an effect leaves Faulted has a record of its pc and of the instruction's opcode. -/
theorem Effect.record_pc_opcode {s t : State} {i : Instr} {record : FaultRecord} (he : Effect s i t)
    (hs : s.status = .running) (ht : t.status = .faulted record) :
    record.pc = s.pc ∧ record.opcode = some i.opcode := by
  cases he with
  | fault => cases ht; exact ⟨rfl, rfl⟩
  | hlt => cases ht
  | ldi | prn | mul | push | pop => exact nomatch hs.symm.trans ht

/-- Settles O15: a fault of the fetch records the first byte the decoder had in hand
(`step_of_fetch_error_eq_raise`), and a fault of an instruction its opcode (`Effect.record_pc_opcode`), which is the
byte it was fetched from. -/
theorem faultRecordIsPrecise : Obligations.FaultRecordIsPrecise := by
  intro s t record hstep ht
  obtain ⟨hs, ⟨e, hfetch, -⟩ | ⟨i, rest, hfetch, hexec⟩⟩ := step_next hstep
  · obtain ⟨kind, info, hraise⟩ := step_of_fetch_error_eq_raise hs hfetch
    cases hstep.symm.trans hraise
    cases ht
    exact ⟨rfl, rfl⟩
  · rw [(fetches_of_fetch hfetch).memRead_pc]
    exact (effect_of_exec hexec).record_pc_opcode hs ht

/-! The checks in their order, each with the step that ends at it (60_exceptions.md R105). -/

theorem fetch_of_pc_gt {s : State} (h : 255 < s.pc) : fetch s = .error .noOpcode := by
  rw [fetch, State.codeBytes_of_gt h, decode_nil]

/-- The register fault names the first operand, in operand order, that is above 7. -/
theorem exec_of_find?_gt {i : Instr} {b : Byte}
    (h : i.regOperands.find? (fun b => decide (7 < b.toNat)) = some b) (s : State) :
    exec i s = raise s (some i.opcode) .registerOutOfBounds b.toNat := by
  have hgt : 7 < b.toNat := by simpa using List.find?_some h
  have hb := List.mem_of_find?_eq_some h
  cases i with
  | hlt => cases hb
  | ldi a imm => obtain rfl := List.mem_singleton.mp hb; exact execLdi_of_gt hgt
  | prn a => obtain rfl := List.mem_singleton.mp hb; exact execPrn_of_gt hgt
  | push a => obtain rfl := List.mem_singleton.mp hb; exact execPush_of_gt hgt
  | pop a => obtain rfl := List.mem_singleton.mp hb; exact execPop_of_gt hgt
  | mul a c =>
    obtain ⟨d, hd⟩ | ha := regIndex_cases a
    · obtain rfl | rfl := List.mem_pair.mp hb
      · omega
      · exact execMul_of_gt_right hd hgt
    · obtain rfl : a = b := by simpa [Instr.regOperands, ha] using h
      exact execMul_of_gt_left ha

/-- Only the stack instructions have a check after the register indices. -/
theorem exec_completes_of_wellFormed {i : Instr} {s : State} (hi : i.WellFormed) (hs : s.status = .running)
    (hpush : ∀ a, i ≠ .push a) (hpop : ∀ a, i ≠ .pop a) : ∃ t, exec i s = .next t ∧ ¬ t.isFaulted := by
  cases i with
  | hlt => exact ⟨_, rfl, fun ⟨_, hrecord⟩ => nomatch hrecord⟩
  | ldi a imm =>
    obtain ⟨r, hr⟩ := hi.exists_reg (b := a) List.mem_cons_self
    exact ⟨_, execLdi_of_reg hr, State.not_isFaulted_of_running hs⟩
  | prn a =>
    obtain ⟨r, hr⟩ := hi.exists_reg (b := a) List.mem_cons_self
    exact ⟨_, execPrn_of_reg hr, State.not_isFaulted_of_running hs⟩
  | mul a b =>
    obtain ⟨d, hd⟩ := hi.exists_reg (b := a) List.mem_cons_self
    obtain ⟨r, hr⟩ := hi.exists_reg (b := b) (List.mem_pair.mpr (.inr rfl))
    exact ⟨_, execMul_of_reg hd hr, State.not_isFaulted_of_running hs⟩
  | push a => exact absurd rfl (hpush a)
  | pop a => exact absurd rfl (hpop a)

/-- PUSH checks the address, then the value; PUSH R7 pushes the checked address itself, so only the other registers
can be too wide (45_stack.md R97). -/
theorem execPush_checks {a : Byte} {s : State} {r : Fin 8} (hs : s.status = .running) (ha : a.toNat = r.val) :
    if 255 < pushAddress s then TakesFault (execPush a s) s (some Opcode.push) .outOfBounds (pushAddress s)
    else if r ≠ SP ∧ 255 < s.reg r then TakesFault (execPush a s) s (some Opcode.push) .valueTooWide (s.reg r)
    else ∃ t, execPush a s = .next t ∧ ¬ t.isFaulted := by
  split_ifs with haddr hvalue
  · rw [execPush_of_address_gt ha haddr]
    exact takesFault_raise ..
  · obtain ⟨hne, hgt⟩ := hvalue
    rw [execPush_of_value_gt ha hne (Nat.le_of_not_lt haddr) hgt]
    exact takesFault_raise ..
  · have hbyte : (if r = SP then pushAddress s else s.reg r) ≤ 255 := by split_ifs <;> omega
    exact ⟨_, execPush_of_le ha rfl (Nat.le_of_not_lt haddr) hbyte, State.not_isFaulted_of_running hs⟩

/-- POP checks the address alone (45_stack.md R98). -/
theorem execPop_checks {a : Byte} {s : State} {r : Fin 8} (hs : s.status = .running) (ha : a.toNat = r.val) :
    if 255 < popAddress s then TakesFault (execPop a s) s (some Opcode.pop) .outOfBounds (popAddress s)
    else ∃ t, execPop a s = .next t ∧ ¬ t.isFaulted := by
  split_ifs with haddr
  · rw [execPop_of_none ha (State.memRead_of_gt haddr)]
    exact takesFault_raise ..
  · exact ⟨_, execPop_of_some ha (State.memRead_of_le (Nat.le_of_not_lt haddr)), State.not_isFaulted_of_running hs⟩

/-- Settles O16: up to the operand bytes the fetch decides the outcome, and from there on the step is the fetched
instruction's `exec` (`State.Fetches.step_eq_exec`), with a lemma for each of its checks. -/
theorem faultPriorityOrder : Obligations.FaultPriorityOrder := by
  intro s hs
  refine ⟨?fetch, ?opcode, fun _ => step_takesFault_of_past_end hs, fun i hi => ?_⟩
  case fetch =>
    intro hpc
    rw [step_of_fetch_error hs (fetch_of_pc_gt hpc)]
    exact takesFault_raise ..
  case opcode =>
    intro op hop hno
    rw [step_of_fetch_error hs (fetch_of_illegal_opcode hop hno)]
    exact takesFault_raise ..
  rw [hi.step_eq_exec hs]
  refine ⟨?index, ?push, ?pop, fun hwf => exec_completes_of_wellFormed hwf hs⟩
  case index =>
    intro b hb
    rw [exec_of_find?_gt hb]
    exact takesFault_raise ..
  case push =>
    rintro a r rfl ha
    exact execPush_checks hs ha
  case pop =>
    rintro a r rfl ha
    exact execPop_checks hs ha

end Sys2Proof.Machine

/-! The reset state and the load (70_reset_and_hazards.md R118, R119, R121). -/

namespace Sys2Proof.Machine

/-- Every cell of the constructed machine is 0 (20_memory.md R34). -/
theorem State.memRead_resetAt (xlen : Nat) {a : Nat} (ha : a ≤ 255) : (State.resetAt xlen).memRead a = some 0#8 :=
  State.memRead_of_le ha

/-- Settles O1: the cells (`State.memRead_resetAt`), the registers with R7 apart (`State.reg_resetAt`), and the
other fields of the constructed machine. -/
theorem resetStateHolds : Obligations.ResetStateHolds := fun xlen =>
  ⟨fun _ ha => State.memRead_resetAt xlen ha, fun r hr => (State.reg_resetAt xlen r).trans (if_neg hr),
    State.reg_resetAt xlen SP, rfl, rfl, rfl, rfl⟩

/-- A program that fits is loaded into the memory of the constructed machine; no other field is touched. -/
theorem boot_of_le (xlen : Nat) {bytes : List Byte} (h : bytes.length ≤ 256) :
    boot xlen bytes =
      .ok { State.resetAt xlen with mem := (State.resetAt xlen).mem.writeBytes 0 bytes } :=
  if_neg (Nat.not_lt.mpr h)

/-- A program that does not fit is not loaded at all (60_exceptions.md R111). -/
theorem boot_of_gt (xlen : Nat) {bytes : List Byte} (h : 256 < bytes.length) :
    boot xlen bytes = .error .loadFailure :=
  if_pos h

/-- Settles O3: the bytes that fit are written over cells that are all 0 (`Memory.read_writeBytes`), and the loaded
machine is the constructed one but for its memory (`boot_of_le`). -/
theorem loadWritesFromAddressZero : Obligations.LoadWritesFromAddressZero := by
  intro xlen bytes hlen
  refine ⟨_, boot_of_le xlen hlen, ?cells, fun _ => rfl, rfl, rfl, rfl⟩
  case cells =>
    intro a ha
    have hread := Memory.read_writeBytes (bs := bytes) (m := (State.resetAt xlen).mem) (a := 0) rfl (by omega) a
    rw [if_pos (Nat.zero_le a)] at hread
    exact (State.memRead_of_le ha).trans (congrArg some hread)

/-- Settles O4: past 256 bytes the load fails (`boot_of_gt`); an empty load is the constructed machine, whose first
fetch finds the 0 of an unwritten cell, the opcode of no instruction. -/
theorem loadTooLongFailsAndEmptyLoads : Obligations.LoadTooLongFailsAndEmptyLoads := by
  refine ⟨fun xlen _ h => boot_of_gt xlen h,
    fun xlen => ⟨State.resetAt xlen, boot_of_le xlen (Nat.zero_le 256), ?fault⟩⟩
  case fault =>
    have hop : (State.resetAt xlen).memRead 0 = some 0x00#8 := State.memRead_resetAt xlen (Nat.zero_le 255)
    rw [illegalOpcodeStops (State.resetAt xlen) 0x00#8 rfl hop (by decide)]
    exact takesFault_raise ..

end Sys2Proof.Machine

/-! PUSH and then POP (45_stack.md R99). -/

namespace Sys2Proof.Machine

/-- A completed PUSH leaves SP at the cell it stored to, so that is what the next POP reads (45_stack.md R97, R98). -/
theorem memRead_popAddress_after_push {s : State} (hm : s.mem.wf = true) (haddr : pushAddress s ≤ 255) (v : Byte) :
    let t := ((s.setReg SP (pushAddress s)).setByte (pushAddress s) v).advance 2
    t.memRead (popAddress t) = some v := by
  intro t
  have hsp : popAddress t = pushAddress s := State.reg_setReg_self s SP _
  rw [hsp, memRead_after_push hm haddr, if_pos rfl]

/-- A POP after a completed PUSH reads the pushed byte back from the cell the PUSH stored it in. It leaves that byte in
its destination and SP as it was before the PUSH; POP R7 increments the popped byte instead. -/
theorem exec_pop_after_push {s : State} {a b : Byte} {r q : Fin 8} {v : Nat} (h : s.Inv) (ha : a.toNat = r.val)
    (hb : b.toNat = q.val) (hlo : 1 ≤ s.reg SP) (hhi : s.reg SP ≤ 256)
    (hv : v = if r = SP then pushAddress s else s.reg r) (hbyte : v ≤ 255) :
    ∃ t u, exec (.push a) s = .next t ∧ exec (.pop b) t = .next u ∧
      (q ≠ SP → u.reg q = v ∧ u.reg SP = s.reg SP) ∧ (q = SP → u.reg SP = v + 1) := by
  have haddr : pushAddress s ≤ 255 := h.pushAddress_le_iff.mpr ⟨hlo, hhi⟩
  have hpred : pushAddress s + 1 = s.reg SP := by rw [pushAddress_of_pos hlo (h.reg_lt SP)]; omega
  have hread := memRead_popAddress_after_push h.mem_wf haddr (BitVec.ofNat 8 v)
  have hzext : zext (BitVec.ofNat 8 v) = v := Nat.mod_eq_of_lt (Nat.lt_succ_of_le hbyte)
  refine ⟨_, _, execPush_of_le ha hv haddr hbyte, execPop_of_some hb hread, ?other, ?stackPointer⟩
  case other =>
    intro hq
    simp [hq, hq.symm, hzext, h.wrap_succ_of_le haddr, hpred]
  case stackPointer =>
    rintro rfl
    simp [hzext, h.wrap_succ_of_le hbyte]

/-- Settles O25: where the PUSH completes, the POP reads back its value (`exec_pop_after_push`), which for PUSH R7 is
the decremented SP; otherwise the PUSH faults on its value or, at SP = 0, on the wrapped address. -/
theorem pushThenPop : Obligations.PushThenPop := by
  intro s a b r q h ha hb
  refine ⟨?completes, ?value, ?address⟩
  case completes =>
    intro hlo hhi hbyte
    have hpush : pushAddress s = s.reg SP - 1 := pushAddress_of_pos hlo (h.reg_lt SP)
    by_cases hr : r = SP
    · obtain ⟨t, u, ht, hu, hother, -⟩ :=
        exec_pop_after_push h ha hb hlo hhi (if_pos hr).symm (h.pushAddress_le_iff.mpr ⟨hlo, hhi⟩)
      exact ⟨t, u, ht, hu, fun hne => absurd hr hne, fun _ hq => hpush ▸ hother hq, fun hne => absurd hr hne⟩
    · obtain ⟨t, u, ht, hu, hother, hstack⟩ := exec_pop_after_push h ha hb hlo hhi (if_neg hr).symm (hbyte hr)
      exact ⟨t, u, ht, hu, fun _ hq => hother hq, fun heq => absurd heq hr, fun _ hq => hstack hq⟩
  case value =>
    intro hlo hhi hr hvalue
    rw [exec, execPush_of_value_gt ha hr (h.pushAddress_le_iff.mpr ⟨hlo, hhi⟩) hvalue]
    exact takesFault_raise ..
  case address =>
    intro hsp
    have hwrap : pushAddress s = 2 ^ s.xlen - 1 := pushAddress_of_zero hsp
    have hpow := h.two_pow_ge
    rw [exec, execPush_of_address_gt ha (by omega), hwrap]
    exact takesFault_raise ..

end Sys2Proof.Machine
